-- ==== Sys2Proof/Word.lean ====
section
/-! DEFINITION. The word types of VLIC (R9, R21, R23) and the mode `optimizePositive` (R13, R71). Types only: every
computation on them stands in a file under Machine/. -/

namespace Sys2Proof

/-- One byte of the buffer, or a command byte (R31, R70). Bit 0 is the least significant (R9). -/
abbrev Byte := BitVec 8

/-- A 32-bit pattern (R9): the value or payload of a 32-bit operation. -/
abbrev Word32 := BitVec 32

/-- A 64-bit pattern (R9): the value or payload of a 64-bit operation, and the width `VW` of the value ports (R8). -/
abbrev Word64 := BitVec 64

/-- The source's flag `optimizePositive`, command bit `P` (R13, R71). It is an operand of each LEN, ENC and DEC command,
never a stored mode (R30, R192). -/
inductive Mode where
  /-- `P = 0`: the payload is the zig-zag transform of the value (suffix `.Z`, R76). -/
  | zigzag
  /-- `P = 1`: the payload is the value's raw bit pattern (suffix `.P`, R76). -/
  | raw
  deriving DecidableEq, Repr

end Sys2Proof
end

