-- ==== Sys2Proof/Syntax.lean ====
section
/-! DEFINITION. The twelve operations of VLIC (R3, R73: one constructor for each row of spec/opcode_table.json) and the
request record that carries one of them with its operands (R21). -/

namespace Sys2Proof

/-- An operation as its command byte gives it (R70, R73). The operands are not part of it: they stand in fixed fields of
the request (R70, R75). The mode is an argument exactly where the command reads its `P` bit (R22, R71). -/
inductive Instr where
  /-- LEN32: length of the encoding of a 32-bit value (R150). -/
  | len32 (m : Mode)
  /-- LEN64: length of the encoding of a 64-bit value (R151). -/
  | len64 (m : Mode)
  /-- ENC32: encode a 32-bit value into the buffer (R114). -/
  | enc32 (m : Mode)
  /-- ENC64: encode a 64-bit value into the buffer (R115). -/
  | enc64 (m : Mode)
  /-- DEC32: decode a 32-bit value from the buffer (R135). -/
  | dec32 (m : Mode)
  /-- DEC64: decode a 64-bit value from the buffer (R136). -/
  | dec64 (m : Mode)
  /-- CANRD32: is a complete 32-bit encoded value present (R164). -/
  | canrd32
  /-- CANRD64: is a complete 64-bit encoded value present (R165). -/
  | canrd64
  /-- ZZE32: zig-zag encode, 32 bits (R98). -/
  | zze32
  /-- ZZE64: zig-zag encode, 64 bits (R99). -/
  | zze64
  /-- ZZD32: zig-zag decode, 32 bits (R100). -/
  | zzd32
  /-- ZZD64: zig-zag decode, 64 bits (R101). -/
  | zzd64
  deriving DecidableEq, Repr

/-- The request record `REQ` (R21): what the host drives for the duration of one operation. `off` and `avail` are
`AW`-bit unsigned numbers; they are natural numbers here because R42 adds them in unbounded natural-number arithmetic, and
`Request.fits` says that they fit `AW` bits (assumption 9). -/
structure Request where
  /-- `REQ.CMD`: the command byte. -/
  cmd : Byte
  /-- `REQ.VAL`: the value operand. -/
  val : Word64
  /-- `REQ.OFF`: the address of the first byte of the encoded value. -/
  off : Nat
  /-- `REQ.AVAIL`: how many bytes, counted from `off`, are valid to read or free to write. -/
  avail : Nat
  deriving DecidableEq, Repr

end Sys2Proof
end

