-- ==== Sys2Proof/WellFormed.lean ====
section
/-! DEFINITION. What makes a command byte legal (R73, R74) and a request one that the `AW`-bit ports can carry (R21).
Every term of `Instr` is well-formed: its constructors hold no number that could be out of range, so the checks are on
what the host presents. The two checks are written apart from the decoder, from R73's list of byte values. -/

namespace Sys2Proof

/-- Why a command byte is reserved, in the order in which R73 tests it. -/
inductive Reserved where
  /-- `CMD[7:5]` is not `000` (224 byte values). -/
  | zField
  /-- `FN` is 110 or 111 (8 byte values). -/
  | function
  /-- `FN` is 011, 100 or 101 and `P = 1` (6 byte values). -/
  | mode
  deriving DecidableEq, Repr

/-- The 18 legal command bytes as R73 lists them: 0x00 to 0x0D, 0x10, 0x11, 0x14, 0x15. -/
def legalCmd (c : Byte) : Bool :=
  decide (c.toNat ≤ 0x0D) || c == 0x10#8 || c == 0x11#8 || c == 0x14#8 || c == 0x15#8

/-- `REQ.OFF` and `REQ.AVAIL` are `AW` bits wide (R21). A reserved command byte does not make a request ill-formed: the
host may present it, and it raises ERR_ILLEGAL_CMD (R74). -/
def Request.fits (aw : Nat) (r : Request) : Bool :=
  decide (r.off < 2 ^ aw) && decide (r.avail < 2 ^ aw)

end Sys2Proof
end

