-- ==== Sys2Proof/Decode.lean ====
section
/-! DEFINITION. The command byte (30_encoding.md Part B): its fields (R70 to R72), the decoder, total on the 256 byte
values and rejecting the 238 reserved ones by name (R73, R74), the encoder, and the request an operation is assembled to (R76,
R77). -/

namespace Sys2Proof

/-- Field `Z`, `CMD[7:5]` (R70). -/
def cmdZ (c : Byte) : Nat := (c.extractLsb' 5 3).toNat

/-- Field `FN`, `CMD[4:2]` (R73). -/
def cmdFN (c : Byte) : Nat := (c.extractLsb' 2 3).toNat

/-- Field `P`, `CMD[1]` (R71). -/
def cmdP (c : Byte) : Bool := c.getLsbD 1

/-- Field `WS`, `CMD[0]` (R72): false is 32 bits, true is 64 bits. -/
def cmdWS (c : Byte) : Bool := c.getLsbD 0

/-- `P` as the mode flag (R71). -/
def cmdMode (c : Byte) : Mode := if cmdP c then .raw else .zigzag

/-- An operation whose `P` bit must be 0 (R71): with `P = 1` the byte is reserved. -/
def modeless (c : Byte) (i : Instr) : Except Reserved Instr :=
  if cmdP c then .error .mode else .ok i

/-- The opcode map of R73, tested in R73's order: `Z`, then `FN`, then `P`. -/
def decode (c : Byte) : Except Reserved Instr :=
  if cmdZ c ≠ 0 then .error .zField
  else
    match cmdFN c, cmdWS c with
    | 0, false => .ok (.len32 (cmdMode c))
    | 0, true => .ok (.len64 (cmdMode c))
    | 1, false => .ok (.enc32 (cmdMode c))
    | 1, true => .ok (.enc64 (cmdMode c))
    | 2, false => .ok (.dec32 (cmdMode c))
    | 2, true => .ok (.dec64 (cmdMode c))
    | 3, false => modeless c .canrd32
    | 3, true => modeless c .canrd64
    | 4, false => modeless c .zze32
    | 4, true => modeless c .zze64
    | 5, false => modeless c .zzd32
    | 5, true => modeless c .zzd64
    | _, _ => .error .function

/-- The mode's bit `P` (R71). -/
def modeBit : Mode → Bool
  | .zigzag => false
  | .raw => true

/-- A command byte from its fields, `000`, `FN`, `P`, `WS` from bit 7 down (R70). -/
def cmdByte (fn : BitVec 3) (p ws : Bool) : Byte :=
  0#3 ++ fn ++ BitVec.ofBool p ++ BitVec.ofBool ws

/-- The command byte of an operation (R73). -/
def encode : Instr → Byte
  | .len32 m => cmdByte 0b000#3 (modeBit m) false
  | .len64 m => cmdByte 0b000#3 (modeBit m) true
  | .enc32 m => cmdByte 0b001#3 (modeBit m) false
  | .enc64 m => cmdByte 0b001#3 (modeBit m) true
  | .dec32 m => cmdByte 0b010#3 (modeBit m) false
  | .dec64 m => cmdByte 0b010#3 (modeBit m) true
  | .canrd32 => cmdByte 0b011#3 false false
  | .canrd64 => cmdByte 0b011#3 false true
  | .zze32 => cmdByte 0b100#3 false false
  | .zze64 => cmdByte 0b100#3 false true
  | .zzd32 => cmdByte 0b101#3 false false
  | .zzd64 => cmdByte 0b101#3 false true

/-- The request that an operation and its operands stand for (R76): `val` is a number read in the operation's width, a
32-bit one sign-extended on the port, and the fields the operation ignores are 0. The offset may be left out and is then 0
(R77). DEDUCED (assumption 15): a number outside the width is cut to the width; the text of an assembler line is not modelled. -/
def assemble (i : Instr) (val : Int) (avail : Nat) (off : Nat := 0) : Request :=
  match i with
  | .len32 _ | .zze32 | .zzd32 =>
    { cmd := encode i, val := (BitVec.ofInt 32 val).signExtend 64, off := 0, avail := 0 }
  | .len64 _ | .zze64 | .zzd64 => { cmd := encode i, val := BitVec.ofInt 64 val, off := 0, avail := 0 }
  | .enc32 _ => { cmd := encode i, val := (BitVec.ofInt 32 val).signExtend 64, off := off, avail := avail }
  | .enc64 _ => { cmd := encode i, val := BitVec.ofInt 64 val, off := off, avail := avail }
  | .dec32 _ | .dec64 _ | .canrd32 | .canrd64 => { cmd := encode i, val := 0, off := off, avail := avail }

/-- The command byte a table word stands for: its `nbits` low bits, the bits above them zero. A command is one byte (R70),
so no later byte exists. -/
def cmdOfTableWord (nbits w : Nat) : Byte := BitVec.ofNat 8 (w % 2 ^ nbits)

/-- What the decoder reads from a word of spec/opcode_table.json. -/
def decodeTableWord (nbits w : Nat) : Option Instr :=
  match decode (cmdOfTableWord nbits w) with
  | .ok i => some i
  | .error _ => none

end Sys2Proof
end

