-- ==== Sys2Proof/Config.lean ====
section
/-! DEFINITION. What is fixed for the machine (R7, R8) and the one free value of the model (U13 of
93_implementation_defined.md). The address width `AW`, which R8 leaves open and makes an argument of the model, is the
field `aw` of State, so that a statement about every state is a statement about every `AW`. -/

namespace Sys2Proof.Config

/-- `N(32) = 5` (R7): the maximum encoded length in bytes of a 32-bit value. -/
def maxLen32 : Nat := 5

/-- `N(64) = 9` (R7): the maximum encoded length in bytes of a 64-bit value. -/
def maxLen64 : Nat := 9

/-- The least address width R8 allows: `AW >= 4`. -/
def minAW : Nat := 4

/-- DESIGN CHOICE (assumption 1; unsafe where a statement rests on it, and none does): the address width of
`State.reset`. R8 leaves `AW` open; 16 is the width the spec's own vectors are written for (95_test_vectors.md). -/
def resetAW : Nat := 16

/-- FREE VALUE (assumption 2; safe). What a byte of the buffer holds before anything has written it. R33 and U13 give
"any value"; the constant has no body, so nothing can be proved of the bytes it gives. It depends on the address alone,
because a read changes nothing (R49) and a byte therefore keeps its value until it is written. -/
opaque powerUpByte : Nat → Byte

end Sys2Proof.Config
end

