-- ==== Sys2Proof/Machine/State.lean ====
section
/-! DEFINITION. The state of the machine. VLIC itself keeps nothing (R20, R27 to R30, R32): the only state an operation
reads or writes is the buffer (R31). Around it stand the request port (R21), the response port (R23), the byte port (R40,
R45 to R47) and the moves the host has yet to make (R26, R28, R51, R210), all plain data. -/

namespace Sys2Proof.Machine

/-- `RESP.STATUS` (R23, R185): the five values VLIC produces; the codes 5, 6 and 7 are never produced (U9). -/
inductive Status where
  /-- 0: completed. -/
  | ok
  /-- 1, ERR_ILLEGAL_CMD: a reserved command byte (R183). -/
  | illegalCmd
  /-- 2, ERR_RANGE: `REQ.OFF + REQ.AVAIL > 2^AW` (R184). -/
  | range
  /-- 3, ERR_CAPACITY: ENC has too little room (R181). -/
  | capacity
  /-- 4, ERR_TRUNCATED: DEC runs out of valid bytes (R182). -/
  | truncated
  deriving DecidableEq, Repr

/-- The response record `RESP` (R23). -/
structure Response where
  /-- `RESP.STATUS`. -/
  status : Status
  /-- `RESP.VAL`, 64 bits (R8, R23). -/
  val : Word64
  /-- `RESP.CNT`, 4 bits (R8, R23). -/
  cnt : BitVec 4
  deriving DecidableEq, Repr

/-- One access VLIC makes through its byte port (R44: one byte wide, always). -/
inductive Access where
  /-- `MemRead(addr, 1)` (R12). -/
  | read (addr : Nat)
  /-- `MemWrite(addr, 1, v)` (R12). -/
  | write (addr : Nat) (v : Byte)
  deriving DecidableEq, Repr

/-- What the host can do, each between two operations (R26, R31, R50, R51, R211; assumptions 7 and 8). -/
inductive HostMove where
  /-- Present a request (R21, R26). -/
  | request (r : Request)
  /-- Write one byte of its buffer (R31, R51 (c)). -/
  | write (addr : Nat) (v : Byte)
  /-- Read one byte of its buffer (R31, R51 (d)). -/
  | read (addr : Nat)
  /-- Assert the reset input (R210). -/
  | reset
  deriving DecidableEq, Repr

/-- The bytes of the buffer that something has written, as (address, byte) pairs with strictly rising addresses. An
address that is not listed has not been written and has no listed value (assumption 13). -/
abbrev Memory := List Host.Cell

/-- The machine. -/
structure State where
  /-- The parameter `AW` (R8, D9): the buffer has `2^aw` bytes (R31). No step changes it. -/
  aw : Nat
  /-- `BUF` (R31): its written bytes. -/
  buf : Memory
  /-- The request port: what the host drives for the current operation (R21, R33). -/
  req : Request
  /-- The response port (R23, R25, R33): the response of the latest step, none when that step was no
  operation. An output, which no step reads (assumption 6). -/
  resp : Option Response
  /-- The byte the host's own read of the buffer returned in the latest step (R51 (d)), none when it made none. An output
  (assumption 6). -/
  rdata : Option Byte
  /-- What the latest operation did on the byte port, in order (R45 to R48). An output (assumption 6). -/
  bus : List Access
  /-- What the host will do from here on, in order (R26, R28; assumption 7). -/
  host : List HostMove
  deriving DecidableEq, Repr

/-- Why the machine stops. No operation of VLIC raises a fault: its four errors are responses (R180, R185). -/
inductive Fault where
  /-- Raised by the host's own read or write of an address at or above `2^AW`: R31 gives the buffer no such byte
  (assumption 5). Safe: the machine stops where the spec gives the move no meaning. -/
  | noSuchByte (addr : Nat)
  deriving DecidableEq, Repr

/-- Why a step has no meaning. -/
inductive Refusal where
  /-- Raised by an arm of `exec` whose operation has no meaning yet; no arm is one. Safe. -/
  | notModelled (mnemonic : String)
  deriving DecidableEq, Repr

/-- How a step ends. -/
abbrev Result := Host.Outcome State Fault Refusal

/-- Right after reset (R33, R210): no response exists, nothing in the buffer has been written by anyone, and the host has
presented nothing yet. The request port's zeros and `aw` are this model's choice (assumptions 1 and 3). -/
def State.reset : State where
  aw := Config.resetAW
  buf := []
  req := { cmd := 0, val := 0, off := 0, avail := 0 }
  resp := none
  rdata := none
  bus := []
  host := []

end Sys2Proof.Machine
end

