-- ==== Sys2Proof/Machine/Flags.lean ====
section
/-! DEFINITION. VLIC has no flags (R29). What is tested or reported one bit or one code at a time stands here: the
continuation flag of an encoded byte (R61) and the status codes (R185). -/

namespace Sys2Proof.Machine

/-- The continuation flag `C` of an encoded byte, bit 7, mask 0x80 (R13, R61). -/
def contFlag (b : Byte) : Bool := b.getLsbD 7

/-- The number in `RESP.STATUS`, 3 bits (R185). -/
def Status.code : Status → BitVec 3
  | .ok => 0
  | .illegalCmd => 1
  | .range => 2
  | .capacity => 3
  | .truncated => 4

/-- CANRD's answer as `RESP.VAL`: the answer in bit 0, bits 63:1 zero (R24, `zext_1`). -/
def answerVal (ans : Bool) : Word64 := (BitVec.ofBool ans).setWidth 64

end Sys2Proof.Machine
end

