-- ==== Sys2Proof/Machine/Operands.lean ====
section
/-! DEFINITION. Operand forms (R22, R42, R75): every operand comes from a fixed field of the request, a 32-bit operation
reads the low half of `REQ.VAL`, and the one addressing mode is `REQ.OFF + i`. The width changes of R11 stand beside
them. -/

namespace Sys2Proof.Machine

/-- `trunc_32` (R11). -/
def trunc32 (v : Word64) : Word32 := v.setWidth 32

/-- `sext_32` (R11): every 32-bit result is returned so (R24). -/
def sext32 (v : Word32) : Word64 := v.signExtend 64

/-- A 64-bit result fills `RESP.VAL` as it is (R24). -/
def full64 (v : Word64) : Word64 := v

/-- `zext_32` (R11). -/
def zext32 (v : Word32) : Word64 := v.setWidth 64

/-- The value operand of a 32-bit operation, `REQ.VAL[31:0]` (R22, R75). -/
def State.val32 (s : State) : Word32 := trunc32 s.req.val

/-- The value operand of a 64-bit operation, `REQ.VAL[63:0]` (R22, R75). -/
def State.val64 (s : State) : Word64 := s.req.val

/-- The address of byte `i` of an encoded value, `REQ.OFF + i` (R42). -/
def State.addr (s : State) (i : Nat) : Nat := s.req.off + i

/-- The range check of R42, in natural-number arithmetic: `REQ.OFF + REQ.AVAIL <= 2^AW`. -/
def State.inRange (s : State) : Bool := decide (s.req.off + s.req.avail ≤ 2 ^ s.aw)

end Sys2Proof.Machine
end

