-- ==== Sys2Proof/Machine/Ops.lean ====
section
/-! DEFINITION. The named operations over the buffer and the ports, raising an error (60_exceptions.md; VLIC has no other
exception and no return from one, R188, R189), and the host's own moves (R31, R51, R210). -/

namespace Sys2Proof.Machine

/-- The canonical form: strictly rising addresses. An entry's value is never what an unlisted address reads as, because an
unlisted address has no listed value. -/
def Memory.wf : Memory → Bool
  | [] => true
  | [_] => true
  | c :: d :: m => decide (c.1 < d.1) && Memory.wf (d :: m)

/-- Every listed address is below `n`. -/
def Memory.below (n : Nat) (m : Memory) : Bool := m.all (fun c => decide (c.1 < n))

/-- The byte last written at `a`, if anything has written it (R49). -/
def Memory.lookup : Memory → Nat → Option Byte
  | [], _ => none
  | c :: m, a => if c.1 = a then some c.2 else Memory.lookup m a

/-- Store one byte, keeping the addresses rising. -/
def Memory.write : Memory → Nat → Byte → Memory
  | [], a, v => [(a, v)]
  | c :: m, a, v =>
    if a < c.1 then (a, v) :: c :: m
    else if c.1 = a then (a, v) :: m
    else c :: Memory.write m a v

/-- What the buffer holds at `a`: the byte last written there (R49), else the free value of an unwritten byte (U13,
assumption 2). -/
def State.byteAt (s : State) (a : Nat) : Byte := (s.buf.lookup a).getD (Config.powerUpByte a)

/-- Byte `i` of the encoded value the request points at (R42). -/
def State.wireByte (s : State) (i : Nat) : Byte := s.byteAt (s.addr i)

/-- `MemRead(a, 1)` (R12): the byte, and the state with the access on the byte port. The buffer is unchanged (R49). -/
def State.memRead (s : State) (a : Nat) : Byte × State :=
  (s.byteAt a, { s with bus := s.bus ++ [.read a] })

/-- `MemWrite(a, 1, v)` (R12). -/
def State.memWrite (s : State) (a : Nat) (v : Byte) : State :=
  { s with buf := s.buf.write a v, bus := s.bus ++ [.write a v] }

/-- Store a sequence of bytes from `a` upward, one access each, in ascending order (R45). -/
def State.memWriteAll (s : State) (a : Nat) : List Byte → State
  | [] => s
  | v :: vs => (s.memWrite a v).memWriteAll (a + 1) vs

/-- Return a response (R23, R26). -/
def State.respond (s : State) (r : Response) : State := { s with resp := some r }

/-- The response of an operation that succeeds (R24). -/
def State.respondOk (s : State) (val : Word64) (cnt : Nat) : State :=
  s.respond { status := .ok, val := val, cnt := BitVec.ofNat 4 cnt }

/-- `raise` (R12, R187): the operation ends with the error's code, zero in both result fields, and nothing else. It saves
nothing, changes no mode and transfers control nowhere (R188). -/
def raiseError (e : Status) (s : State) : Result :=
  .next (s.respond { status := e, val := 0, cnt := 0 })

/-- Between operations the ports carry nothing: the previous step's response, read data and accesses belong to that step
(R25, R33). -/
def State.clearPorts (s : State) : State := { s with resp := none, rdata := none, bus := [] }

/-- With nothing from the host VLIC is idle (R197, R210; assumption 4). -/
def hostIdle (s : State) : Result := .next s

/-- The host writes a byte of its buffer (R31, R51 (c)). -/
def hostWrite (a : Nat) (v : Byte) (s : State) : Result :=
  if a < 2 ^ s.aw then .next { s with buf := s.buf.write a v } else .fault (.noSuchByte a)

/-- The host reads a byte of its buffer (R31, R51 (d)). -/
def hostRead (a : Nat) (s : State) : Result :=
  if a < 2 ^ s.aw then .next { s with rdata := some (s.byteAt a) } else .fault (.noSuchByte a)

/-- A reset of VLIC, between operations (R210, R211): no architectural state to change, the buffer neither read nor
written, no response outstanding. The host's own plans are the host's (assumption 12). -/
def hostReset (s : State) : Result := .next s

end Sys2Proof.Machine
end

