-- ==== Sys2Proof/Machine/CanRead.lean ====
section
/-! DEFINITION. The completion lookahead: CANRD32 (R164) and CANRD64 (R165). -/

namespace Sys2Proof.Machine

/-- The byte walk of R162 and R164 over `n` bytes from index `i`: it stops after the first byte whose continuation flag is
clear (answer 1), or after the last valid byte (answer 0); with no byte it reads nothing (R163). -/
def canReadLoop : Nat → Nat → State → Bool × State
  | 0, _, s => (false, s)
  | n + 1, i, s =>
    let rd := s.memRead (s.addr i)
    if contFlag rd.1 then canReadLoop n (i + 1) rd.2 else (true, rd.2)

/-- The shared body of R164 and R165: the range check, the fast path without a read (R161), the byte walk. -/
def canReadOp (N : Nat) (s : State) : Result :=
  if s.inRange then
    if N ≤ s.req.avail then .next (s.respondOk (answerVal true) 0)
    else
      let walk := canReadLoop s.req.avail 0 s
      .next (walk.2.respondOk (answerVal walk.1) 0)
  else raiseError .range s

/-- CANRD32 (R164). -/
def execCanrd32 (s : State) : Result := canReadOp Config.maxLen32 s

/-- CANRD64 (R165). -/
def execCanrd64 (s : State) : Result := canReadOp Config.maxLen64 s

end Sys2Proof.Machine
end

