-- ==== Sys2Proof/Machine/Varint.lean ====
section
/-! DEFINITION. The wire format (30_encoding.md Part A) as pure functions: the length and the bytes the encoder produces
(R110, R111, and the source's loop R112), where a reader stops and what it gathers (R130 to R133), and the completeness
check (R160). `W` is the width of the payload, `N` is `N(W)`. A reader's bytes are given as a function from the byte's index.
The operations walk the buffer with loops of their own (Machine/Decoder.lean, Machine/CanRead.lean); that both agree is
for statements to say. -/

namespace Sys2Proof.Machine

/-- The least `k` from `k` on with `u < 2^(7*k)`, of `n` candidates; past them, the next number. -/
def varLenFrom (u : Nat) : Nat → Nat → Nat
  | 0, k => k
  | n + 1, k => if u < 2 ^ (7 * k) then k else varLenFrom u n (k + 1)

/-- `VarLen_W(u)` (R110): the least `k` in `1 .. N-1` with `u < 2^(7*k)`, else `N`. -/
def varLen {W : Nat} (N : Nat) (u : BitVec W) : Nat := varLenFrom u.toNat (N - 1) 1

/-- The low 7 bits of a pattern, as a byte with bit 7 clear. -/
def low7 {W : Nat} (u : BitVec W) : Byte := (u.setWidth 7).setWidth 8

/-- Byte `i` of the encoding of `u` when the encoding has `L` bytes (R111): a group with the continuation flag set, or the
terminal byte. -/
def encByte {W : Nat} (u : BitVec W) (L i : Nat) : Byte :=
  if i + 1 < L then 0x80#8 ||| low7 (u >>> (7 * i)) else (u >>> (7 * i)).setWidth 8

/-- `EncBytes_W(u)` (R111). -/
def encBytes {W : Nat} (N : Nat) (u : BitVec W) : List Byte :=
  (List.range (varLen N u)).map (encByte u (varLen N u))

/-- The loop of R112 with `n` continuation bytes still allowed. -/
def encLoop {W : Nat} : Nat → BitVec W → List Byte
  | 0, r => [r.setWidth 8]
  | n + 1, r =>
    if r >>> 7 ≠ 0 then (0x80#8 ||| low7 r) :: encLoop n (r >>> 7) else [r.setWidth 8]

/-- The contribution of a byte at an index `i <= N-2` to the accumulator (R131, R132): its low 7 bits at offset `7*i`. -/
def group (W i : Nat) (b : Byte) : BitVec W := (((b.setWidth 7).setWidth 64) <<< (7 * i)).setWidth W

/-- The contribution of the byte at index `N-1` (R132, R133): all 8 bits, shifted on 64 bits and then cut to `W`. -/
def lastGroup (W i : Nat) (b : Byte) : BitVec W := ((b.setWidth 64) <<< (7 * i)).setWidth W

/-- From index `i`, the first index with a clear continuation flag among `n` of them; past them, the next index. -/
def terminalFrom (b : Nat → Byte) : Nat → Nat → Nat
  | 0, i => i
  | n + 1, i => if contFlag (b i) then terminalFrom b n (i + 1) else i

/-- The terminal index of R130. -/
def terminalIndex (N : Nat) (b : Nat → Byte) : Nat := terminalFrom b (N - 1) 0

/-- What the byte at index `i` contributes (R131, R133). -/
def contribution (W N : Nat) (b : Nat → Byte) (i : Nat) : BitVec W :=
  if i = N - 1 then lastGroup W i (b i) else group W i (b i)

/-- The accumulator after the bytes of indices `0 .. n-1` (R131 to R133), from zero. -/
def accumulate (W N : Nat) (b : Nat → Byte) : Nat → BitVec W
  | 0 => 0
  | n + 1 => accumulate W N b n ||| contribution W N b n

/-- `CanRead_W(b, a)` (R160). -/
def canRead (N : Nat) (b : Nat → Byte) (a : Nat) : Bool :=
  decide (N ≤ a) || (List.range a).any (fun i => !contFlag (b i))

end Sys2Proof.Machine
end

