-- ==== Sys2Proof/Machine/ZigZag.lean ====
section
/-! DEFINITION. The zig-zag transform unit (40_zigzag.md): the two functions, the payload of each mode, and the
operations ZZE32, ZZE64, ZZD32, ZZD64 are built from these (Machine/Transform.lean). `W` is the width of the pattern, 32 or
64 in every use. -/

namespace Sys2Proof.Machine

/-- `ZigZagEnc_W(v) = (v << 1) ^ (v >>a (W-1))` (R90). -/
def zigZagEnc {W : Nat} (v : BitVec W) : BitVec W := (v <<< 1) ^^^ v.sshiftRight (W - 1)

/-- `ZigZagDec_W(u) = (u >>> 1) ^ neg(u & 1)` (R91). -/
def zigZagDec {W : Nat} (u : BitVec W) : BitVec W := (u >>> 1) ^^^ -(u &&& BitVec.ofNat W 1)

/-- `Payload_W(v, P)` (R96). -/
def payload {W : Nat} (m : Mode) (v : BitVec W) : BitVec W :=
  match m with
  | .raw => v
  | .zigzag => zigZagEnc v

/-- `Unpayload_W(u, P)` (R97). -/
def unpayload {W : Nat} (m : Mode) (u : BitVec W) : BitVec W :=
  match m with
  | .raw => u
  | .zigzag => zigZagDec u

end Sys2Proof.Machine
end

