-- ==== Sys2Proof/Machine/Decoder.lean ====
section
/-! DEFINITION. The decoder: DEC32 (R135) and DEC64 (R136). -/

namespace Sys2Proof.Machine

/-- The loop of R135 and R136 at index `i`, with `n = N-1-i` indices before the last one. It answers the accumulator and
the number of bytes read, or none when it needs a byte at an index `>= REQ.AVAIL` (R137), and the state with the accesses it
made. -/
def decodeLoop {W : Nat} : Nat → Nat → BitVec W → State → Option (BitVec W × Nat) × State
  | 0, i, acc, s =>
    if i < s.req.avail then
      let rd := s.memRead (s.addr i)
      (some (acc ||| lastGroup W i rd.1, i + 1), rd.2)
    else (none, s)
  | n + 1, i, acc, s =>
    if i < s.req.avail then
      let rd := s.memRead (s.addr i)
      if contFlag rd.1 then decodeLoop n (i + 1) (acc ||| group W i rd.1) rd.2
      else (some (acc ||| group W i rd.1, i + 1), rd.2)
    else (none, s)

/-- The shared body of R135 and R136: the range check, the loop, the inverse transform (R134). `ext` is how the width's
result fills `RESP.VAL` (R24). -/
def decodeOp {W : Nat} (N : Nat) (m : Mode) (ext : BitVec W → Word64) (s : State) : Result :=
  if s.inRange then
    match decodeLoop (W := W) (N - 1) 0 0 s with
    | (some (acc, n), t) => .next (t.respondOk (ext (unpayload m acc)) n)
    | (none, t) => raiseError .truncated t
  else raiseError .range s

/-- DEC32 (R135). -/
def execDec32 (m : Mode) (s : State) : Result := decodeOp Config.maxLen32 m sext32 s

/-- DEC64 (R136). -/
def execDec64 (m : Mode) (s : State) : Result := decodeOp Config.maxLen64 m full64 s

end Sys2Proof.Machine
end

