-- ==== Sys2Proof/Machine/Encoder.lean ====
section
/-! DEFINITION. The encoder: ENC32 (R114) and ENC64 (R115). -/

namespace Sys2Proof.Machine

/-- The shared body of R114 and R115: the range check, then the capacity check before the first write (R116, R117), then
the writes in ascending order (R45). -/
def encodeOp {W : Nat} (N : Nat) (m : Mode) (v : BitVec W) (s : State) : Result :=
  if s.inRange then
    if s.req.avail < varLen N (payload m v) then raiseError .capacity s
    else
      .next ((s.memWriteAll (s.addr 0) (encBytes N (payload m v))).respondOk 0 (varLen N (payload m v)))
  else raiseError .range s

/-- ENC32 (R114). -/
def execEnc32 (m : Mode) (s : State) : Result := encodeOp Config.maxLen32 m s.val32 s

/-- ENC64 (R115). -/
def execEnc64 (m : Mode) (s : State) : Result := encodeOp Config.maxLen64 m s.val64 s

end Sys2Proof.Machine
end

