-- ==== Sys2Proof/Machine/Length.lean ====
section
/-! DEFINITION. The length calculator: LEN32 (R150) and LEN64 (R151). -/

namespace Sys2Proof.Machine

/-- The shared body of R150 and R151: `VarLen_W(Payload_W(v, P))` in `RESP.CNT`; no memory access, no error. -/
def lengthOp {W : Nat} (N : Nat) (m : Mode) (v : BitVec W) (s : State) : Result :=
  .next (s.respondOk 0 (varLen N (payload m v)))

/-- LEN32 (R150). -/
def execLen32 (m : Mode) (s : State) : Result := lengthOp Config.maxLen32 m s.val32 s

/-- LEN64 (R151). -/
def execLen64 (m : Mode) (s : State) : Result := lengthOp Config.maxLen64 m s.val64 s

end Sys2Proof.Machine
end

