-- ==== Sys2Proof/Machine/Transform.lean ====
section
/-! DEFINITION. The four operations of the zig-zag transform unit: ZZE32 (R98), ZZE64 (R99), ZZD32 (R100), ZZD64 (R101).
None touches memory, none has an error of its own; `RESP.CNT` is 0. -/

namespace Sys2Proof.Machine

/-- ZZE32 (R98). -/
def execZze32 (s : State) : Result := .next (s.respondOk (sext32 (zigZagEnc s.val32)) 0)

/-- ZZE64 (R99). -/
def execZze64 (s : State) : Result := .next (s.respondOk (zigZagEnc s.val64) 0)

/-- ZZD32 (R100). -/
def execZzd32 (s : State) : Result := .next (s.respondOk (sext32 (zigZagDec s.val32)) 0)

/-- ZZD64 (R101). -/
def execZzd64 (s : State) : Result := .next (s.respondOk (zigZagDec s.val64) 0)

end Sys2Proof.Machine
end

