-- ==== Sys2Proof/Machine/Dispatch.lean ====
section
/-! DEFINITION. One arm for each operation (R73), each one call of its meaning. -/

namespace Sys2Proof.Machine

def exec (i : Instr) (s : State) : Host.Outcome State Fault Refusal :=
  match i with
  | .len32 m => Sys2Proof.Machine.execLen32 m s
  | .len64 m => Sys2Proof.Machine.execLen64 m s
  | .enc32 m => Sys2Proof.Machine.execEnc32 m s
  | .enc64 m => Sys2Proof.Machine.execEnc64 m s
  | .dec32 m => Sys2Proof.Machine.execDec32 m s
  | .dec64 m => Sys2Proof.Machine.execDec64 m s
  | .canrd32 => Sys2Proof.Machine.execCanrd32 s
  | .canrd64 => Sys2Proof.Machine.execCanrd64 s
  | .zze32 => Sys2Proof.Machine.execZze32 s
  | .zze64 => Sys2Proof.Machine.execZze64 s
  | .zzd32 => Sys2Proof.Machine.execZzd32 s
  | .zzd64 => Sys2Proof.Machine.execZzd64 s

end Sys2Proof.Machine
end

