-- ==== Sys2Proof/Machine/Serve.lean ====
section
/-! DEFINITION. Serving what the host presents: a request is decoded and run as one atomic step (R26, R50), a reserved
command raises ERR_ILLEGAL_CMD before anything else is looked at (R74, R183, R186). -/

namespace Sys2Proof.Machine

/-- Serve one request: it stands on the request port (R21) while its operation runs. -/
def serveRequest (r : Request) (s : State) : Result :=
  match decode r.cmd with
  | .ok i => exec i { s with req := r }
  | .error _ => raiseError .illegalCmd { s with req := r }

/-- Make one move of the host. -/
def serveMove (h : HostMove) (s : State) : Result :=
  match h with
  | .request r => serveRequest r s
  | .write a v => hostWrite a v s
  | .read a => hostRead a s
  | .reset => hostReset s

/-- The request a table word stands for: the operands the request port holds, with that command byte. -/
def State.tableRequest (s : State) (nbits w : Nat) : Request :=
  { s.req with cmd := cmdOfTableWord nbits w }

end Sys2Proof.Machine
end

