-- ==== Sys2Proof/Machine/Step.lean ====
section
/-! DEFINITION. One step of the machine: the next move of the host, taken whole. VLIC has no program counter and fetches
nothing (R28, R41): "the sequence of operations is the sequence of requests the host issues". -/

namespace Sys2Proof.Machine

/-- One step: the ports are cleared of the step before, then the host's next move is made; without one VLIC is idle. -/
def step (s : State) : Host.Outcome State Fault Refusal :=
  match s.host with
  | [] => hostIdle s.clearPorts
  | h :: rest => serveMove h { s.clearPorts with host := rest }

/-- The state whose next step serves the command byte of a table word: the host's next move is to present it, with the
operands that stand on the request port. -/
def State.withFetchWord (s : State) (nbits w : Nat) : State :=
  { s with host := .request (s.tableRequest nbits w) :: s.host }

end Sys2Proof.Machine
end

