-- ==== Sys2Proof/Safety.lean ====
section
/-! DEFINITION. What a state of this hardware is, as an invariant: the buffer has `2^AW` bytes (R31), the ports carry what
their widths allow (R21, R23), a response is one the rules give (R24, R187), and VLIC stays inside the bytes the host
declared (R42, R45 to R47). -/

namespace Sys2Proof.Machine

/-- A move the host can make on a buffer of `2^aw` bytes and ports of `aw` bits (R21, R31). -/
def HostMove.fits (aw : Nat) : HostMove → Bool
  | .request r => r.fits aw
  | .write a _ => decide (a < 2 ^ aw)
  | .read a => decide (a < 2 ^ aw)
  | .reset => true

/-- The address of an access. -/
def Access.addr : Access → Nat
  | .read a => a
  | .write a _ => a

/-- A response the rules can give: `RESP.CNT` is 0 to 9 (R8, R24), and an error carries zeros (R187). -/
def Response.legal (r : Response) : Bool :=
  match r.status with
  | .ok => decide (r.cnt.toNat ≤ Config.maxLen64)
  | _ => r.val == 0 && r.cnt == 0

/-- The access lies in `REQ.OFF .. REQ.OFF + REQ.AVAIL - 1` and in the buffer (R42, R45 to R47). -/
def State.allows (s : State) (x : Access) : Bool :=
  decide (s.req.off ≤ x.addr) && decide (x.addr < s.req.off + s.req.avail) && decide (x.addr < 2 ^ s.aw)

/-- The invariant. -/
structure State.Inv (s : State) : Prop where
  /-- `AW >= 4` (R8). -/
  aw_min : Config.minAW ≤ s.aw
  /-- The buffer's list is in canonical form. -/
  buf_wf : s.buf.wf = true
  /-- Every written address is one of the `2^AW` the buffer has (R31). -/
  buf_below : s.buf.below (2 ^ s.aw) = true
  /-- The request port carries `AW`-bit numbers (R21). -/
  req_fits : s.req.fits s.aw = true
  /-- A response, where there is one, is legal (R24, R187). -/
  resp_legal : ∀ r, s.resp = some r → r.legal = true
  /-- The byte port was used only inside the declared bytes (R42). -/
  bus_inside : s.bus.all s.allows = true
  /-- The host's moves are ones it can make (R21, R31). -/
  host_fits : s.host.all (HostMove.fits s.aw) = true

end Sys2Proof.Machine
end

