-- ==== Sys2Proof/Certificates/Slice0/Obligations.lean ====
section
/-! DEFINITION. The statements about the model, each a proposition that names the rules it formalises. They are about every
state, hence about every `AW` (R8), unless a hypothesis says otherwise; the free value `Config.powerUpByte` is in no hypothesis,
so each holds whatever the unwritten bytes of the buffer are. -/

open Sys2Proof Sys2Proof.Machine

/-! ### The command byte -/

/-- R73, table T14: each of the 18 legal command bytes, written out, decodes to its operation. -/
def Obligations.CommandBytesDecode : Prop :=
  decode 0b00000000#8 = .ok (.len32 .zigzag) ∧ decode 0b00000010#8 = .ok (.len32 .raw) ∧
  decode 0b00000001#8 = .ok (.len64 .zigzag) ∧ decode 0b00000011#8 = .ok (.len64 .raw) ∧
  decode 0b00000100#8 = .ok (.enc32 .zigzag) ∧ decode 0b00000110#8 = .ok (.enc32 .raw) ∧
  decode 0b00000101#8 = .ok (.enc64 .zigzag) ∧ decode 0b00000111#8 = .ok (.enc64 .raw) ∧
  decode 0b00001000#8 = .ok (.dec32 .zigzag) ∧ decode 0b00001010#8 = .ok (.dec32 .raw) ∧
  decode 0b00001001#8 = .ok (.dec64 .zigzag) ∧ decode 0b00001011#8 = .ok (.dec64 .raw) ∧
  decode 0b00001100#8 = .ok .canrd32 ∧ decode 0b00001101#8 = .ok .canrd64 ∧
  decode 0b00010000#8 = .ok .zze32 ∧ decode 0b00010001#8 = .ok .zze64 ∧
  decode 0b00010100#8 = .ok .zzd32 ∧ decode 0b00010101#8 = .ok .zzd64

/-- R73: the encoder and the decoder are inverse to each other: every operation comes back from its command byte, and a byte
that decodes to an operation is that operation's byte. -/
def Obligations.CommandByteRoundTrip : Prop :=
  (∀ i : Instr, decode (encode i) = .ok i) ∧
  (∀ (c : Byte) (i : Instr), decode c = .ok i → c = encode i)

/-- R73, R74: which bytes are reserved, and by which of the three tests, in their order: 224 by `Z`, 8 by `FN`, 6 by `P`; the
other 18 are exactly the legal ones. -/
def Obligations.ReservedBytesClassified : Prop :=
  ∀ c : Byte,
    (decode c = .error .zField ↔ 0x20 ≤ c.toNat) ∧
    (decode c = .error .function ↔ 0x18 ≤ c.toNat ∧ c.toNat ≤ 0x1F) ∧
    (decode c = .error .mode ↔
      c.toNat = 0x0E ∨ c.toNat = 0x0F ∨ c.toNat = 0x12 ∨ c.toNat = 0x13 ∨ c.toNat = 0x16 ∨ c.toNat = 0x17) ∧
    ((∃ i, decode c = .ok i) ↔ legalCmd c = true)

/-- R183, R74, R186: a request with a reserved command byte is answered with ERR_ILLEGAL_CMD (code 1) and zeros, whatever its
operands are, and nothing else happens: no byte of the buffer is read or written. -/
def Obligations.ReservedCommandIsIllegal : Prop :=
  ∀ (s : State) (q : Request) (rest : List HostMove),
    s.host = .request q :: rest → legalCmd q.cmd = false →
    step s = .next { s with
      req := q, resp := some ⟨.illegalCmd, 0, 0⟩, rdata := none, bus := [], host := rest } ∧
    Status.code .illegalCmd = 1

/-- R76, R77: the fields of the request that an operation and its operands are assembled to. The command byte decodes to the
operation; `REQ.VAL` is the operand in the operation's width, a 32-bit one sign-extended; the fields the operation ignores are 0; the
form without an offset is the one with offset 0. R76 gives the number for a value that fits the operation's width. The clauses are
over every integer: that a number outside the width is cut to the width is this model's reading, the DEDUCED log entry 15, and
cites no rule. The offset and the available count are any natural numbers (log entry 9). No operation runs here: that a step runs
what the command byte decodes to is `StepRunsDecodedRequest`. -/
def Obligations.AssembledRequestFields : Prop :=
  ∀ (i : Instr) (v : Int) (a o : Nat),
    decode (assemble i v a o).cmd = .ok i ∧
    assemble i v a = assemble i v a 0 ∧
    (∀ m, i = .enc32 m →
      (assemble i v a o).val.extractLsb' 0 32 = BitVec.ofInt 32 v ∧ (assemble i v a o).off = o ∧
        (assemble i v a o).avail = a) ∧
    (∀ m, i = .enc64 m →
      (assemble i v a o).val = BitVec.ofInt 64 v ∧ (assemble i v a o).off = o ∧ (assemble i v a o).avail = a) ∧
    ((∃ m, i = .len32 m) ∨ i = .zze32 ∨ i = .zzd32 →
      (assemble i v a o).val.extractLsb' 0 32 = BitVec.ofInt 32 v ∧ (assemble i v a o).off = 0 ∧
        (assemble i v a o).avail = 0) ∧
    ((∃ m, i = .len64 m) ∨ i = .zze64 ∨ i = .zzd64 →
      (assemble i v a o).val = BitVec.ofInt 64 v ∧ (assemble i v a o).off = 0 ∧ (assemble i v a o).avail = 0) ∧
    ((∃ m, i = .dec32 m ∨ i = .dec64 m) ∨ i = .canrd32 ∨ i = .canrd64 →
      (assemble i v a o).val = 0 ∧ (assemble i v a o).off = o ∧ (assemble i v a o).avail = a) ∧
    ((∃ m, i = .len32 m ∨ i = .enc32 m) ∨ i = .zze32 ∨ i = .zzd32 →
      (assemble i v a o).val = ((assemble i v a o).val.extractLsb' 0 32).signExtend 64)

/-! ### One step -/

/-- R26, R28, R70: when the host's next move is a request whose command byte decodes to `i`, a step is `exec i` on the state in
which the request stands on the request port, the other ports are clear, and the move is gone. The list of moves is the model's form
(assumption 7). -/
def Obligations.StepRunsDecodedRequest : Prop :=
  ∀ (s : State) (q : Request) (rest : List HostMove) (i : Instr),
    s.host = .request q :: rest → decode q.cmd = .ok i →
    step s = exec i { s with req := q, resp := none, rdata := none, bus := [], host := rest }

/-- R31, R51, R197, R210: what a step does that serves no request. Without a move VLIC is idle; a host write changes one byte,
a host read returns one, a reset changes nothing; a host access past the buffer's end has no meaning. The idle step and the
fault are the model's choice (assumptions 4 and 5). -/
def Obligations.StepMakesHostMoves : Prop :=
  ∀ (s : State) (rest : List HostMove) (a : Nat) (v : Byte),
    (s.host = [] → step s = .next { s with resp := none, rdata := none, bus := [] }) ∧
    (s.host = .reset :: rest →
      step s = .next { s with resp := none, rdata := none, bus := [], host := rest }) ∧
    (s.host = .write a v :: rest → a < 2 ^ s.aw →
      ∃ t, step s = .next t ∧ t.aw = s.aw ∧ t.req = s.req ∧ t.resp = none ∧ t.rdata = none ∧ t.bus = [] ∧
        t.host = rest ∧ t.byteAt a = v ∧ ∀ b, b ≠ a → t.byteAt b = s.byteAt b) ∧
    (s.host = .read a :: rest → a < 2 ^ s.aw →
      step s = .next { s with resp := none, rdata := some (s.byteAt a), bus := [], host := rest }) ∧
    (s.host = .write a v :: rest → 2 ^ s.aw ≤ a → step s = .fault (.noSuchByte a)) ∧
    (s.host = .read a :: rest → 2 ^ s.aw ≤ a → step s = .fault (.noSuchByte a))

/-- R25: the response is an output, not a register: no step reads it, nor anything else the step before left on a port
(assumption 6). -/
def Obligations.StepIgnoresOutputPorts : Prop :=
  ∀ (s : State) (r : Option Response) (d : Option Byte) (b : List Access),
    step { s with resp := r, rdata := d, bus := b } = step s

/-- R25, R189: an error is not sticky: the operation after a failed one behaves exactly as if the failed one had not been
issued. -/
def Obligations.FailedRequestLeavesNoTrace : Prop :=
  ∀ (s t : State) (q q' : Request) (rest : List HostMove) (r : Response),
    s.host = .request q :: .request q' :: rest → step s = .next t → t.resp = some r → r.status ≠ .ok →
    step t = step { s with host := .request q' :: rest }

/-- R26, R185 (PO15): every request, legal or reserved, with any operands, gets exactly one response in its own step, with a
status code from 0 to 4; the step uses up that one move. -/
def Obligations.EveryRequestGetsOneResponse : Prop :=
  ∀ (s : State) (q : Request) (rest : List HostMove),
    s.host = .request q :: rest →
    ∃ t r, step s = .next t ∧ t.resp = some r ∧ r.status.code.toNat ≤ 4 ∧ t.req = q ∧ t.host = rest ∧
      t.aw = s.aw ∧ t.rdata = none

/-- R51: between operations the host reads what was last written: a byte the host writes is what its next read of that address
returns, and a read of another address returns what was there. -/
def Obligations.HostReadsWhatItWrote : Prop :=
  ∀ (s : State) (a b : Nat) (v : Byte) (rest : List HostMove),
    s.host = .write a v :: .read b :: rest → a < 2 ^ s.aw → b < 2 ^ s.aw →
    ∃ t u, step s = .next t ∧ step t = .next u ∧ u.host = rest ∧
      u.rdata = some (if b = a then v else s.byteAt b)

/-! ### The invariant -/

/-- R33: the state after reset satisfies the invariant. Its AW and the zeros on its request port are the model's choice
(assumptions 1 and 3). -/
def Obligations.ResetSatisfiesInv : Prop := State.reset.Inv

/-- R24, R31, R42, R187: every step from a state that satisfies the invariant, reached by a run or not, leads to one that does:
the buffer's list stays canonical and within `2^AW` bytes, every response is one the rules give, and VLIC has used the byte
port only inside the bytes the host declared. -/
def Obligations.StepKeepsInv : Prop :=
  ∀ s t : State, s.Inv → step s = .next t → t.Inv

/-- R26, R180: from a state that satisfies the invariant no step ends in a fault or a refusal: every operation completes. -/
def Obligations.StepNeverStops : Prop :=
  ∀ s : State, s.Inv → ∃ t, step s = .next t

/-! ### The zig-zag transform -/

/-- R93, which the spec marks as derived from R90 and R91: the transform is a bijective mapping, for both widths. -/
def Obligations.ZigZagBijective : Prop :=
  (∀ x : Word32, zigZagDec (zigZagEnc x) = x ∧ zigZagEnc (zigZagDec x) = x) ∧
  (∀ x : Word64, zigZagDec (zigZagEnc x) = x ∧ zigZagEnc (zigZagDec x) = x)

/-- R90, R91: both directions as the source's formula and bit by bit, for both widths. -/
def Obligations.ZigZagBitByBit : Prop :=
  (∀ v : Word32, zigZagEnc v = (v <<< 1) ^^^ v.sshiftRight 31 ∧ (zigZagEnc v).getLsbD 0 = v.getLsbD 31 ∧
    ∀ i, 1 ≤ i → i ≤ 31 → (zigZagEnc v).getLsbD i = (v.getLsbD (i - 1) ^^ v.getLsbD 31)) ∧
  (∀ u : Word32, zigZagDec u = (u >>> 1) ^^^ -(u &&& 1#32) ∧ (zigZagDec u).getLsbD 31 = u.getLsbD 0 ∧
    ∀ i, i ≤ 30 → (zigZagDec u).getLsbD i = (u.getLsbD (i + 1) ^^ u.getLsbD 0)) ∧
  (∀ v : Word64, zigZagEnc v = (v <<< 1) ^^^ v.sshiftRight 63 ∧ (zigZagEnc v).getLsbD 0 = v.getLsbD 63 ∧
    ∀ i, 1 ≤ i → i ≤ 63 → (zigZagEnc v).getLsbD i = (v.getLsbD (i - 1) ^^ v.getLsbD 63)) ∧
  (∀ u : Word64, zigZagDec u = (u >>> 1) ^^^ -(u &&& 1#64) ∧ (zigZagDec u).getLsbD 63 = u.getLsbD 0 ∧
    ∀ i, i ≤ 62 → (zigZagDec u).getLsbD i = (u.getLsbD (i + 1) ^^ u.getLsbD 0))

/-- R92, which the spec marks as derived from R90 and R91 (signed is two's complement, assumption 14): the two functions on the
signed and unsigned readings, for both widths; the largest payload is the most negative
value, the one before it the most positive value. -/
def Obligations.ZigZagOnReadings : Prop :=
  (∀ v : Word32, ((zigZagEnc v).toNat : Int) = if 0 ≤ v.toInt then 2 * v.toInt else -2 * v.toInt - 1) ∧
  (∀ u : Word32, (zigZagDec u).toInt =
    if u.toNat % 2 = 0 then (u.toNat : Int) / 2 else -(((u.toNat : Int) + 1) / 2)) ∧
  (∀ v : Word64, ((zigZagEnc v).toNat : Int) = if 0 ≤ v.toInt then 2 * v.toInt else -2 * v.toInt - 1) ∧
  (∀ u : Word64, (zigZagDec u).toInt =
    if u.toNat % 2 = 0 then (u.toNat : Int) / 2 else -(((u.toNat : Int) + 1) / 2)) ∧
  (zigZagDec (BitVec.ofNat 32 (2 ^ 32 - 1))).toInt = -2 ^ 31 ∧
  (zigZagDec (BitVec.ofNat 32 (2 ^ 32 - 2))).toInt = 2 ^ 31 - 1 ∧
  (zigZagDec (BitVec.ofNat 64 (2 ^ 64 - 1))).toInt = -2 ^ 63 ∧
  (zigZagDec (BitVec.ofNat 64 (2 ^ 64 - 2))).toInt = 2 ^ 63 - 1

/-- R94, which the spec marks as derived from R92 (assumption 14): the magnitude law of the encoder's thresholds, for both
widths. -/
def Obligations.ZigZagMagnitude : Prop :=
  (∀ (v : Word32) (k : Nat), 1 ≤ k → k ≤ 31 →
    ((zigZagEnc v).toNat < 2 ^ k ↔ -2 ^ (k - 1) ≤ v.toInt ∧ v.toInt ≤ 2 ^ (k - 1) - 1)) ∧
  (∀ (v : Word64) (k : Nat), 1 ≤ k → k ≤ 63 →
    ((zigZagEnc v).toNat < 2 ^ k ↔ -2 ^ (k - 1) ≤ v.toInt ∧ v.toInt ≤ 2 ^ (k - 1) - 1))

/-- R95, which the spec marks as derived from R92: the two widths' transforms agree on every 32-bit pattern, so ENC32 and ENC64
write the same bytes for it under `P = 0`; under `P = 1` they do not for -1. -/
def Obligations.ZigZagWidthsAgree : Prop :=
  (∀ v : Word32, zigZagEnc (sext32 v) = zext32 (zigZagEnc v)) ∧
  (∀ v : Word32, encBytes 5 (payload .zigzag v) = encBytes 9 (payload .zigzag (sext32 v))) ∧
  encBytes 5 (payload .raw (-1 : Word32)) = [0xFF, 0xFF, 0xFF, 0xFF, 0x0F] ∧
  encBytes 9 (payload .raw (-1 : Word64)) = [0xFF, 0xFF, 0xFF, 0xFF, 0xFF, 0xFF, 0xFF, 0xFF, 0xFF]

/-- R98 to R101: the result of each of the four operations, on every state: the source's formula on the value operand,
sign-extended where it has 32 bits, count 0, status OK, and no other change. -/
def Obligations.TransformResults : Prop :=
  ∀ s : State,
    (∀ v : Word32, v = s.req.val.extractLsb' 0 32 →
      exec .zze32 s = .next { s with resp := some ⟨.ok, ((v <<< 1) ^^^ v.sshiftRight 31).signExtend 64, 0⟩ } ∧
      exec .zzd32 s = .next { s with resp := some ⟨.ok, ((v >>> 1) ^^^ -(v &&& 1#32)).signExtend 64, 0⟩ }) ∧
    (∀ v : Word64, v = s.req.val →
      exec .zze64 s = .next { s with resp := some ⟨.ok, (v <<< 1) ^^^ v.sshiftRight 63, 0⟩ } ∧
      exec .zzd64 s = .next { s with resp := some ⟨.ok, (v >>> 1) ^^^ -(v &&& 1#64), 0⟩ })

/-! ### Lengths and encodings -/

/-- R110 (its 64-bit column is marked as derived from R112): `VarLen_W(u)` is the least `k` in `1 .. N(W)-1` with `u < 2^(7*k)`,
else `N(W)`, and the same with shifts in place of powers, for both widths. -/
def Obligations.VarLenIsLeast : Prop :=
  (∀ (u : Word32) (k : Nat), 1 ≤ k → k ≤ 5 →
    (varLen 5 u = k ↔ (k = 5 ∨ u.toNat < 2 ^ (7 * k)) ∧ ∀ j, 1 ≤ j → j < k → 2 ^ (7 * j) ≤ u.toNat) ∧
    (varLen 5 u = k ↔ (k = 5 ∨ u >>> (7 * k) = 0) ∧ ∀ j, 1 ≤ j → j < k → u >>> (7 * j) ≠ 0)) ∧
  (∀ u : Word32, 1 ≤ varLen 5 u ∧ varLen 5 u ≤ 5) ∧
  (∀ (u : Word64) (k : Nat), 1 ≤ k → k ≤ 9 →
    (varLen 9 u = k ↔ (k = 9 ∨ u.toNat < 2 ^ (7 * k)) ∧ ∀ j, 1 ≤ j → j < k → 2 ^ (7 * j) ≤ u.toNat) ∧
    (varLen 9 u = k ↔ (k = 9 ∨ u >>> (7 * k) = 0) ∧ ∀ j, 1 ≤ j → j < k → u >>> (7 * j) ≠ 0)) ∧
  (∀ u : Word64, 1 ≤ varLen 9 u ∧ varLen 9 u ≤ 9)

/-- R113 (a) to (d), which the spec marks as derived from R110 and R111, with R61, R66: the shape of an encoding, for both
widths: its length; every byte but the last has bit 7 set; the last has it clear unless the encoding has full length; no
encoding of more than one byte ends in `00`; a 32-bit fifth byte is at most `0F`. -/
def Obligations.EncodingShape : Prop :=
  (∀ u : Word32,
    (encBytes 5 u).length = varLen 5 u ∧
    (∀ (i : Nat) (b : Byte), i + 1 < varLen 5 u → (encBytes 5 u)[i]? = some b → b.getLsbD 7 = true) ∧
    (∀ b : Byte, (encBytes 5 u)[varLen 5 u - 1]? = some b →
      (varLen 5 u < 5 → b.getLsbD 7 = false) ∧ (1 < varLen 5 u → b ≠ 0) ∧ (varLen 5 u = 5 → b.toNat ≤ 0x0F))) ∧
  (∀ u : Word64,
    (encBytes 9 u).length = varLen 9 u ∧
    (∀ (i : Nat) (b : Byte), i + 1 < varLen 9 u → (encBytes 9 u)[i]? = some b → b.getLsbD 7 = true) ∧
    (∀ b : Byte, (encBytes 9 u)[varLen 9 u - 1]? = some b →
      (varLen 9 u < 9 → b.getLsbD 7 = false) ∧ (1 < varLen 9 u → b ≠ 0)))

/-- R113 (e), which the spec marks as derived from R110 and R111, with R64: the payload is the sum of the payload parts of the
encoding's bytes, each at its bit offset. -/
def Obligations.EncodingSumsToPayload : Prop :=
  (∀ u : Word32, u.toNat = ((encBytes 5 u).zipIdx.map fun p =>
    (if p.2 = 4 then p.1.toNat % 16 else p.1.toNat % 128) * 2 ^ (7 * p.2)).sum) ∧
  (∀ u : Word64, u.toNat = ((encBytes 9 u).zipIdx.map fun p =>
    (if p.2 = 8 then p.1.toNat else p.1.toNat % 128) * 2 ^ (7 * p.2)).sum)

/-- R113 (f), which the spec marks as derived from R110 and R111: no encoding is a prefix of another of the same width, and
distinct payloads have distinct encodings. -/
def Obligations.EncodingPrefixFree : Prop :=
  (∀ u v : Word32, encBytes 5 u <+: encBytes 5 v → u = v) ∧
  (∀ u v : Word64, encBytes 9 u <+: encBytes 9 v → u = v)

/-- R113 (g), which the spec marks as derived from R110 and R111: a 32-bit payload has the same bytes in both widths. -/
def Obligations.EncodingWidthsAgree : Prop :=
  ∀ u : Word32, encBytes 5 u = encBytes 9 (zext32 u)

/-- R112: the loop the source describes produces the bytes of R111, for every payload of both widths. For 32 bits its bound is never
what stops it: a larger one gives the same bytes. For 64 bits it is: without it a payload of `2^63` or more would take ten bytes. -/
def Obligations.EncodingLoopAgrees : Prop :=
  (∀ u : Word32, encLoop 4 u = encBytes 5 u) ∧ (∀ u : Word64, encLoop 8 u = encBytes 9 u) ∧
  (∀ (u : Word32) (n : Nat), encLoop (4 + n) u = encBytes 5 u) ∧
  (∀ (u : Word64) (n : Nat), 2 ^ 63 ≤ u.toNat → (encLoop (9 + n) u).length = 10)

/-- R118, which the spec marks as derived from R110 and R94 (assumption 14): the signed values that take each length, in both
modes and both widths. -/
def Obligations.LengthBySignedValue : Prop :=
  (∀ v : Word32,
    (∀ k, 1 ≤ k → k ≤ 4 →
      (varLen 5 (payload .raw v) = k ↔
        (2 ^ (7 * (k - 1)) ≤ v.toInt ∧ v.toInt ≤ 2 ^ (7 * k) - 1) ∨ (k = 1 ∧ v.toInt = 0)) ∧
      (varLen 5 (payload .zigzag v) ≤ k ↔ -2 ^ (7 * k - 1) ≤ v.toInt ∧ v.toInt ≤ 2 ^ (7 * k - 1) - 1)) ∧
    (varLen 5 (payload .raw v) = 5 ↔ v.toInt < 0 ∨ 2 ^ 28 ≤ v.toInt) ∧
    (varLen 5 (payload .zigzag v) = 5 ↔ v.toInt < -2 ^ 27 ∨ 2 ^ 27 - 1 < v.toInt)) ∧
  (∀ v : Word64,
    (∀ k, 1 ≤ k → k ≤ 8 →
      (varLen 9 (payload .raw v) = k ↔
        (2 ^ (7 * (k - 1)) ≤ v.toInt ∧ v.toInt ≤ 2 ^ (7 * k) - 1) ∨ (k = 1 ∧ v.toInt = 0)) ∧
      (varLen 9 (payload .zigzag v) ≤ k ↔ -2 ^ (7 * k - 1) ≤ v.toInt ∧ v.toInt ≤ 2 ^ (7 * k - 1) - 1)) ∧
    (varLen 9 (payload .raw v) = 9 ↔ v.toInt < 0 ∨ 2 ^ 56 ≤ v.toInt) ∧
    (varLen 9 (payload .zigzag v) = 9 ↔ v.toInt < -2 ^ 55 ∨ 2 ^ 55 - 1 < v.toInt))

/-- R150, R151: LEN answers, on every state, the least number of 7-bit groups that hold the payload, but at most `N(W)`, in
`RESP.CNT`, with `RESP.VAL` 0 and status OK, and changes nothing else. -/
def Obligations.LenResults : Prop :=
  ∀ (m : Mode) (s : State),
    (∀ u : Word32, u = payload m (s.req.val.extractLsb' 0 32) →
      ∃ n : BitVec 4, exec (.len32 m) s = .next { s with resp := some ⟨.ok, 0, n⟩ } ∧
        1 ≤ n.toNat ∧ n.toNat ≤ 5 ∧ (n.toNat < 5 → u.toNat < 2 ^ (7 * n.toNat)) ∧
        ∀ j, 1 ≤ j → j < n.toNat → 2 ^ (7 * j) ≤ u.toNat) ∧
    (∀ u : Word64, u = payload m s.req.val →
      ∃ n : BitVec 4, exec (.len64 m) s = .next { s with resp := some ⟨.ok, 0, n⟩ } ∧
        1 ≤ n.toNat ∧ n.toNat ≤ 9 ∧ (n.toNat < 9 → u.toNat < 2 ^ (7 * n.toNat)) ∧
        ∀ j, 1 ≤ j → j < n.toNat → 2 ^ (7 * j) ≤ u.toNat)

/-- R152, which the spec marks as derived from R150, R151, R114, R115: the count LEN returns is the count ENC returns for the
same value and mode whenever that ENC succeeds, and ENC with at least that much room and a passing range check succeeds, for
both widths. -/
def Obligations.LenAgreesWithEnc : Prop :=
  ∀ (m : Mode) (s : State) (p : Instr × Instr), p = (.len32 m, .enc32 m) ∨ p = (.len64 m, .enc64 m) →
    ∃ t n, exec p.1 s = .next t ∧ t.resp = some ⟨.ok, 0, n⟩ ∧
      ∃ t' r', exec p.2 s = .next t' ∧ t'.resp = some r' ∧
        (r'.status = .ok → r'.cnt = n) ∧
        (s.req.off + s.req.avail ≤ 2 ^ s.aw → n.toNat ≤ s.req.avail → r'.status = .ok)

/-! ### ENC -/

/-- R114, R45, R117: ENC32 with enough room. It completes with the count; it writes exactly the bytes of R111 at `REQ.OFF` and
up, in ascending order, each once, and reads none; every other byte of the buffer reads as before. -/
def Obligations.Enc32Writes : Prop :=
  ∀ (m : Mode) (s : State) (u : Word32) (L : Nat),
    u = payload m (s.req.val.extractLsb' 0 32) → L = varLen 5 u →
    s.req.off + s.req.avail ≤ 2 ^ s.aw → L ≤ s.req.avail →
    ∃ t, exec (.enc32 m) s = .next t ∧ t.resp = some ⟨.ok, 0, BitVec.ofNat 4 L⟩ ∧
      t.aw = s.aw ∧ t.req = s.req ∧ t.rdata = s.rdata ∧ t.host = s.host ∧
      t.bus = s.bus ++ (List.range L).map (fun i => .write (s.req.off + i) (t.byteAt (s.req.off + i))) ∧
      (∀ i, i + 1 < L → t.byteAt (s.req.off + i) = 0x80#8 ||| ((u >>> (7 * i)).extractLsb' 0 7).setWidth 8) ∧
      t.byteAt (s.req.off + (L - 1)) = (u >>> (7 * (L - 1))).extractLsb' 0 8 ∧
      ∀ a, a < s.req.off ∨ s.req.off + L ≤ a → t.byteAt a = s.byteAt a

/-- R115, R45, R117: ENC64 with enough room. It completes with the count; it writes exactly the bytes of R111 at `REQ.OFF` and
up, in ascending order, each once, and reads none; every other byte of the buffer reads as before. -/
def Obligations.Enc64Writes : Prop :=
  ∀ (m : Mode) (s : State) (u : Word64) (L : Nat),
    u = payload m s.req.val → L = varLen 9 u →
    s.req.off + s.req.avail ≤ 2 ^ s.aw → L ≤ s.req.avail →
    ∃ t, exec (.enc64 m) s = .next t ∧ t.resp = some ⟨.ok, 0, BitVec.ofNat 4 L⟩ ∧
      t.aw = s.aw ∧ t.req = s.req ∧ t.rdata = s.rdata ∧ t.host = s.host ∧
      t.bus = s.bus ++ (List.range L).map (fun i => .write (s.req.off + i) (t.byteAt (s.req.off + i))) ∧
      (∀ i, i + 1 < L → t.byteAt (s.req.off + i) = 0x80#8 ||| ((u >>> (7 * i)).extractLsb' 0 7).setWidth 8) ∧
      t.byteAt (s.req.off + (L - 1)) = (u >>> (7 * (L - 1))).extractLsb' 0 8 ∧
      ∀ a, a < s.req.off ∨ s.req.off + L ≤ a → t.byteAt a = s.byteAt a

/-- R116, R117, R181: ENC without enough room is answered with ERR_CAPACITY and zeros and does nothing else, however much of the
value would have fitted; with `N(W)` bytes of room it never is. -/
def Obligations.EncCapacity : Prop :=
  ∀ (m : Mode) (s : State), s.req.off + s.req.avail ≤ 2 ^ s.aw →
    (s.req.avail < varLen 5 (payload m (s.req.val.extractLsb' 0 32)) →
      exec (.enc32 m) s = .next { s with resp := some ⟨.capacity, 0, 0⟩ }) ∧
    (s.req.avail < varLen 9 (payload m s.req.val) →
      exec (.enc64 m) s = .next { s with resp := some ⟨.capacity, 0, 0⟩ }) ∧
    (5 ≤ s.req.avail → ∃ t n, exec (.enc32 m) s = .next t ∧ t.resp = some ⟨.ok, 0, n⟩) ∧
    (9 ≤ s.req.avail → ∃ t n, exec (.enc64 m) s = .next t ∧ t.resp = some ⟨.ok, 0, n⟩)

/-! ### DEC -/

/-- R135, R130, R131, R133, R134, R46: DEC32 of a value that ends, at index `k`, inside the valid bytes. It completes with the
value and the count `k + 1`; the accumulator has each of the bytes 0 to 3 that was read at its offset, the low four bits of a
fifth byte at bit 28, and zeros above; only the bytes up to `k` are read, in ascending order, and nothing is written. -/
def Obligations.Dec32Result : Prop :=
  ∀ (m : Mode) (s : State) (k : Nat),
    s.req.off + s.req.avail ≤ 2 ^ s.aw → k < s.req.avail → k ≤ 4 →
    (∀ i, i < k → (s.byteAt (s.req.off + i)).getLsbD 7 = true) →
    (k < 4 → (s.byteAt (s.req.off + k)).getLsbD 7 = false) →
    ∃ acc : Word32,
      (∀ i j, i ≤ k → i < 4 → j < 7 → acc.getLsbD (7 * i + j) = (s.byteAt (s.req.off + i)).getLsbD j) ∧
      (k = 4 → ∀ j, j < 4 → acc.getLsbD (28 + j) = (s.byteAt (s.req.off + 4)).getLsbD j) ∧
      (∀ p, 7 * (k + 1) ≤ p → acc.getLsbD p = false) ∧
      exec (.dec32 m) s = .next { s with
        resp := some ⟨.ok, (unpayload m acc).signExtend 64, BitVec.ofNat 4 (k + 1)⟩
        bus := s.bus ++ (List.range (k + 1)).map (fun i => .read (s.req.off + i)) }

/-- R136, R130, R131, R133, R134, R46: DEC64 of a value that ends, at index `k`, inside the valid bytes. It completes with the
value and the count `k + 1`; the accumulator has each of the bytes 0 to 7 that was read at its offset, all eight bits of a ninth
byte at bit 56, and zeros above; only the bytes up to `k` are read, in ascending order, and nothing is written. -/
def Obligations.Dec64Result : Prop :=
  ∀ (m : Mode) (s : State) (k : Nat),
    s.req.off + s.req.avail ≤ 2 ^ s.aw → k < s.req.avail → k ≤ 8 →
    (∀ i, i < k → (s.byteAt (s.req.off + i)).getLsbD 7 = true) →
    (k < 8 → (s.byteAt (s.req.off + k)).getLsbD 7 = false) →
    ∃ acc : Word64,
      (∀ i j, i ≤ k → i < 8 → j < 7 → acc.getLsbD (7 * i + j) = (s.byteAt (s.req.off + i)).getLsbD j) ∧
      (k = 8 → ∀ j, j < 8 → acc.getLsbD (56 + j) = (s.byteAt (s.req.off + 8)).getLsbD j) ∧
      (k < 8 → ∀ p, 7 * (k + 1) ≤ p → acc.getLsbD p = false) ∧
      exec (.dec64 m) s = .next { s with
        resp := some ⟨.ok, unpayload m acc, BitVec.ofNat 4 (k + 1)⟩
        bus := s.bus ++ (List.range (k + 1)).map (fun i => .read (s.req.off + i)) }

/-- R137, R182, R46: DEC of a value that does not end inside the valid bytes is answered with ERR_TRUNCATED and zeros; it has
read exactly the valid bytes, none past them, and done nothing else. -/
def Obligations.DecTruncated : Prop :=
  ∀ (m : Mode) (s : State) (p : Instr × Nat), p = (.dec32 m, 5) ∨ p = (.dec64 m, 9) →
    s.req.off + s.req.avail ≤ 2 ^ s.aw → s.req.avail < p.2 →
    (∀ i, i < s.req.avail → (s.byteAt (s.req.off + i)).getLsbD 7 = true) →
    exec p.1 s = .next { s with
      resp := some ⟨.truncated, 0, 0⟩
      bus := s.bus ++ (List.range s.req.avail).map (fun i => .read (s.req.off + i)) }

/-- R133 (PO14): what DEC32 returns does not depend on bits 7:4 of the fifth byte. -/
def Obligations.FifthByteHighBitsIgnored : Prop :=
  ∀ (m : Mode) (s t : State), s.aw = t.aw → s.req = t.req →
    (∀ i, i < 4 → s.byteAt (s.req.off + i) = t.byteAt (t.req.off + i)) →
    (s.byteAt (s.req.off + 4)).extractLsb' 0 4 = (t.byteAt (t.req.off + 4)).extractLsb' 0 4 →
    ∃ s' t', exec (.dec32 m) s = .next s' ∧ exec (.dec32 m) t = .next t' ∧ s'.resp = t'.resp

/-! ### CANRD -/

/-- R164, R165, R160 to R163, R47: CANRD completes with the answer in `RESP.VAL`: 1 when `N(W)` bytes or more are valid, without a
read, or when a valid byte has bit 7 clear; otherwise 0. Without the fast path it reads, in ascending order, up to the first
such byte or to the last valid one; it changes nothing else. -/
def Obligations.CanReadResults : Prop :=
  ∀ (s : State) (p : Instr × Nat), p = (.canrd32, 5) ∨ p = (.canrd64, 9) →
    s.req.off + s.req.avail ≤ 2 ^ s.aw →
    (p.2 ≤ s.req.avail → exec p.1 s = .next { s with resp := some ⟨.ok, 1, 0⟩ }) ∧
    (∀ k, s.req.avail < p.2 → k < s.req.avail →
      (∀ i, i < k → (s.byteAt (s.req.off + i)).getLsbD 7 = true) →
      (s.byteAt (s.req.off + k)).getLsbD 7 = false →
      exec p.1 s = .next { s with
        resp := some ⟨.ok, 1, 0⟩
        bus := s.bus ++ (List.range (k + 1)).map (fun i => .read (s.req.off + i)) }) ∧
    (s.req.avail < p.2 →
      (∀ i, i < s.req.avail → (s.byteAt (s.req.off + i)).getLsbD 7 = true) →
      exec p.1 s = .next { s with
        resp := some ⟨.ok, 0, 0⟩
        bus := s.bus ++ (List.range s.req.avail).map (fun i => .read (s.req.off + i)) })

/-- R160: `CanRead_W` is true when `N(W)` bytes or more are valid or a valid byte has bit 7 clear, and false otherwise; CANRD's fast
path and byte walk answer exactly that of the bytes at `REQ.OFF` and up, for both widths. -/
def Obligations.CanReadIsThePredicate : Prop :=
  ∀ (s : State) (p : Instr × Nat), p = (.canrd32, 5) ∨ p = (.canrd64, 9) →
    (∀ (b : Nat → Byte) (a : Nat), (canRead p.2 b a = true ↔ p.2 ≤ a ∨ ∃ i, i < a ∧ (b i).getLsbD 7 = false) ∧
      (canRead p.2 b a = false ↔ a < p.2 ∧ ∀ i, i < a → (b i).getLsbD 7 = true)) ∧
    (s.req.off + s.req.avail ≤ 2 ^ s.aw →
      ∃ t, exec p.1 s = .next t ∧
        t.resp = some ⟨.ok, if canRead p.2 (fun i => s.byteAt (s.req.off + i)) s.req.avail then 1 else 0, 0⟩)

/-- R166, which the spec marks as derived from R160, R130, R137: for the same width, offset, available count and buffer, and
either mode, CANRD answers 1 exactly when DEC succeeds, and 0 exactly when DEC raises ERR_TRUNCATED; when it answers 1, DEC
reads no more bytes than are valid. -/
def Obligations.CanReadAgreesWithDec : Prop :=
  ∀ (m : Mode) (s : State) (p : Instr × Instr), p = (.canrd32, .dec32 m) ∨ p = (.canrd64, .dec64 m) →
    ∃ t r t' r', exec p.1 s = .next t ∧ t.resp = some r ∧ exec p.2 s = .next t' ∧ t'.resp = some r' ∧
      ((r.status = .ok ∧ r.val = 1) ↔ r'.status = .ok) ∧
      ((r.status = .ok ∧ r.val = 0) ↔ r'.status = .truncated) ∧
      (r.status = .ok → r.val = 1 → r'.cnt.toNat ≤ s.req.avail)

/-- R167, which the spec marks as derived from R160 and R113: over the bytes ENC wrote for a value, CANRD of the same width
answers 0 for every available count below the value's length and 1 from there on. -/
def Obligations.CanReadPrefixLaw : Prop :=
  (∀ (m : Mode) (v : Word32) (s : State), s.req.off + s.req.avail ≤ 2 ^ s.aw →
    (∀ i b, (encBytes 5 (payload m v))[i]? = some b → s.byteAt (s.req.off + i) = b) →
    ∃ t, exec .canrd32 s = .next t ∧
      t.resp = some ⟨.ok, if varLen 5 (payload m v) ≤ s.req.avail then 1 else 0, 0⟩) ∧
  (∀ (m : Mode) (v : Word64) (s : State), s.req.off + s.req.avail ≤ 2 ^ s.aw →
    (∀ i b, (encBytes 9 (payload m v))[i]? = some b → s.byteAt (s.req.off + i) = b) →
    ∃ t, exec .canrd64 s = .next t ∧
      t.resp = some ⟨.ok, if varLen 9 (payload m v) ≤ s.req.avail then 1 else 0, 0⟩)

/-! ### Round trips and mismatches -/

/-- R68, R139 (PO4, PO5; the spec marks R139 as derived from R130 to R134, R113, R93): encode, then decode, with the same width
and mode: for every value and both modes, an ENC32 or ENC64 that succeeds with count `L` leaves a buffer from which DEC of that
width and mode, at the same offset and with any available count from `L` up, returns the value and `L`, whatever bytes follow.
-/
def Obligations.EncodeDecodeRoundTrip : Prop :=
  (∀ (m : Mode) (s t : State) (q : Request) (L : BitVec 4),
    exec (.enc32 m) s = .next t → t.resp = some ⟨.ok, 0, L⟩ →
    q.off = s.req.off → L.toNat ≤ q.avail → q.off + q.avail ≤ 2 ^ s.aw →
    ∃ t', exec (.dec32 m) { t with req := q } = .next t' ∧
      t'.resp = some ⟨.ok, (s.req.val.extractLsb' 0 32).signExtend 64, L⟩) ∧
  (∀ (m : Mode) (s t : State) (q : Request) (L : BitVec 4),
    exec (.enc64 m) s = .next t → t.resp = some ⟨.ok, 0, L⟩ →
    q.off = s.req.off → L.toNat ≤ q.avail → q.off + q.avail ≤ 2 ^ s.aw →
    ∃ t', exec (.dec64 m) { t with req := q } = .next t' ∧ t'.resp = some ⟨.ok, s.req.val, L⟩)

/-- R68, R139 (PO6; the spec marks R139 as derived from R130 to R134, R113, R93): decode, then encode, with the same width and
mode: over the bytes the encoder produces for a payload, DEC returns a value whose payload is that one, so encoding it again
gives the same bytes. -/
def Obligations.DecodeEncodeRestoresBytes : Prop :=
  (∀ (m : Mode) (u : Word32) (s : State), s.req.off + s.req.avail ≤ 2 ^ s.aw → varLen 5 u ≤ s.req.avail →
    (∀ i b, (encBytes 5 u)[i]? = some b → s.byteAt (s.req.off + i) = b) →
    ∃ t v n, exec (.dec32 m) s = .next t ∧ t.resp = some ⟨.ok, v, n⟩ ∧ n.toNat = varLen 5 u ∧
      encBytes 5 (payload m (v.extractLsb' 0 32)) = encBytes 5 u) ∧
  (∀ (m : Mode) (u : Word64) (s : State), s.req.off + s.req.avail ≤ 2 ^ s.aw → varLen 9 u ≤ s.req.avail →
    (∀ i b, (encBytes 9 u)[i]? = some b → s.byteAt (s.req.off + i) = b) →
    ∃ t v n, exec (.dec64 m) s = .next t ∧ t.resp = some ⟨.ok, v, n⟩ ∧ n.toNat = varLen 9 u ∧
      encBytes 9 (payload m v) = encBytes 9 u)

/-- R213, which the spec marks as derived from R96 and R97, with R65: decoding with the other mode is no error: it returns
`ZigZagDec_W(v)` of a value written raw, `ZigZagEnc_W(v)` of a value written zig-zag, and the byte count is the encoder's. -/
def Obligations.ModeMismatchIsDetermined : Prop :=
  (∀ (s t : State) (L : BitVec 4), exec (.enc32 .raw) s = .next t → t.resp = some ⟨.ok, 0, L⟩ →
    ∃ t', exec (.dec32 .zigzag) t = .next t' ∧
      t'.resp = some ⟨.ok, (zigZagDec (s.req.val.extractLsb' 0 32)).signExtend 64, L⟩) ∧
  (∀ (s t : State) (L : BitVec 4), exec (.enc32 .zigzag) s = .next t → t.resp = some ⟨.ok, 0, L⟩ →
    ∃ t', exec (.dec32 .raw) t = .next t' ∧
      t'.resp = some ⟨.ok, (zigZagEnc (s.req.val.extractLsb' 0 32)).signExtend 64, L⟩) ∧
  (∀ (s t : State) (L : BitVec 4), exec (.enc64 .raw) s = .next t → t.resp = some ⟨.ok, 0, L⟩ →
    ∃ t', exec (.dec64 .zigzag) t = .next t' ∧ t'.resp = some ⟨.ok, zigZagDec s.req.val, L⟩) ∧
  (∀ (s t : State) (L : BitVec 4), exec (.enc64 .zigzag) s = .next t → t.resp = some ⟨.ok, 0, L⟩ →
    ∃ t', exec (.dec64 .raw) t = .next t' ∧ t'.resp = some ⟨.ok, zigZagEnc s.req.val, L⟩)

/-- R214, which the spec marks as derived from R113, R130, R133, with R65: bytes a 32-bit ENC wrote decode with DEC64 to the
sign-extended value under `P = 0` and to the zero-extended pattern under `P = 1`, with the same count. -/
def Obligations.WidthMismatchIsDetermined : Prop :=
  ∀ (m : Mode) (s t : State) (L : BitVec 4), exec (.enc32 m) s = .next t → t.resp = some ⟨.ok, 0, L⟩ →
    ∃ t', exec (.dec64 m) t = .next t' ∧
      t'.resp = some ⟨.ok,
        match m with
        | .zigzag => (s.req.val.extractLsb' 0 32).signExtend 64
        | .raw => (s.req.val.extractLsb' 0 32).setWidth 64, L⟩

/-! ### Errors -/

/-- R185: the numeric codes, and that the five of them are all a status can be. -/
def Obligations.StatusCodes : Prop :=
  Status.code .ok = 0 ∧ Status.code .illegalCmd = 1 ∧ Status.code .range = 2 ∧ Status.code .capacity = 3 ∧
  Status.code .truncated = 4 ∧ ∀ e : Status, e.code.toNat ≤ 4

/-- R181, R182, R184 (and R185, R186): which operation answers which error, exactly when, with ERR_RANGE before ERR_CAPACITY and
ERR_TRUNCATED; LEN and the transform operations answer none, and no operation answers ERR_ILLEGAL_CMD. ERR_RANGE and ERR_CAPACITY
change the response only, so no memory is touched; ERR_TRUNCATED returns no value and writes nothing. The codes are 2, 3, 4. -/
def Obligations.ErrorsExactlyWhen : Prop :=
  ∀ (i : Instr) (s : State), ∃ t r, exec i s = .next t ∧ t.resp = some r ∧
    (r.status = .range ↔ 2 ^ s.aw < s.req.off + s.req.avail ∧
      ((∃ m, i = .enc32 m ∨ i = .enc64 m ∨ i = .dec32 m ∨ i = .dec64 m) ∨ i = .canrd32 ∨ i = .canrd64)) ∧
    (r.status = .capacity ↔ s.req.off + s.req.avail ≤ 2 ^ s.aw ∧
      ∃ m, (i = .enc32 m ∧ s.req.avail < varLen 5 (payload m (s.req.val.extractLsb' 0 32))) ∨
        (i = .enc64 m ∧ s.req.avail < varLen 9 (payload m s.req.val))) ∧
    (r.status = .truncated ↔ s.req.off + s.req.avail ≤ 2 ^ s.aw ∧
      (∀ j, j < s.req.avail → (s.byteAt (s.req.off + j)).getLsbD 7 = true) ∧
      ∃ m, (i = .dec32 m ∧ s.req.avail < 5) ∨ (i = .dec64 m ∧ s.req.avail < 9)) ∧
    r.status ≠ .illegalCmd ∧
    (r.status = .range → t = { s with resp := some ⟨.range, 0, 0⟩ }) ∧
    (r.status = .capacity → t = { s with resp := some ⟨.capacity, 0, 0⟩ }) ∧
    (r.status = .truncated → t.resp = some ⟨.truncated, 0, 0⟩ ∧ t.buf = s.buf) ∧
    Status.code .range = 2 ∧ Status.code .capacity = 3 ∧ Status.code .truncated = 4

/-- R187: when a request is answered with an error, `RESP.VAL` and `RESP.CNT` are 0, the buffer is exactly as it was before, no
access was a write, and reads were made only where the error is ERR_TRUNCATED. -/
def Obligations.ErrorHasNoEffect : Prop :=
  ∀ (s t : State) (q : Request) (rest : List HostMove) (r : Response),
    s.host = .request q :: rest → step s = .next t → t.resp = some r → r.status ≠ .ok →
    r.val = 0 ∧ r.cnt = 0 ∧ t.buf = s.buf ∧
      (∀ x, x ∈ t.bus → r.status = .truncated ∧ ∃ a, x = .read a)

/-! ### All operations -/

/-- Of R24, the form of a successful response only: for LEN and ENC `RESP.VAL` is 0 and `RESP.CNT` is 1 to `N(W)`; for DEC
`RESP.CNT` is 1 to `N(W)`; for CANRD `RESP.VAL` is 0 or 1 and `RESP.CNT` is 0; for the transform operations `RESP.CNT` is 0; and
`RESP.VAL` of DEC32, ZZE32 and ZZD32 is sign-extended from its low half. Which value and which count an operation answers is in
`TransformResults`, `LenResults`, `Enc32Writes`, `Enc64Writes`, `Dec32Result`, `Dec64Result` and `CanReadResults`. -/
def Obligations.SuccessfulResponseForm : Prop :=
  ∀ (i : Instr) (s t : State) (r : Response), exec i s = .next t → t.resp = some r → r.status = .ok →
    (∀ m, i = .len32 m ∨ i = .enc32 m → r.val = 0 ∧ 1 ≤ r.cnt.toNat ∧ r.cnt.toNat ≤ 5) ∧
    (∀ m, i = .len64 m ∨ i = .enc64 m → r.val = 0 ∧ 1 ≤ r.cnt.toNat ∧ r.cnt.toNat ≤ 9) ∧
    (∀ m, i = .dec32 m → r.val = (r.val.extractLsb' 0 32).signExtend 64 ∧ 1 ≤ r.cnt.toNat ∧ r.cnt.toNat ≤ 5) ∧
    (∀ m, i = .dec64 m → 1 ≤ r.cnt.toNat ∧ r.cnt.toNat ≤ 9) ∧
    (i = .canrd32 ∨ i = .canrd64 → (r.val = 0 ∨ r.val = 1) ∧ r.cnt = 0) ∧
    (i = .zze32 ∨ i = .zzd32 → r.val = (r.val.extractLsb' 0 32).signExtend 64 ∧ r.cnt = 0) ∧
    (i = .zze64 ∨ i = .zzd64 → r.cnt = 0)

/-- R31, R49, R27 to R30: the frame of every operation but ENC, whatever it answers: it changes the response port and what the
byte port records, and nothing else; in particular every byte of the buffer. -/
def Obligations.NonStoringFrame : Prop :=
  ∀ (i : Instr) (s t : State), (∀ m, i ≠ .enc32 m ∧ i ≠ .enc64 m) → exec i s = .next t →
    t = { s with resp := t.resp, bus := t.bus } ∧
    (∀ a, t.byteAt a = s.byteAt a) ∧
    (∀ x, x ∈ t.bus → x ∈ s.bus ∨ ∃ a, x = .read a)

/-- R45, R48, R46, R47: what the byte port sees of each operation. The accesses an operation adds lie at or above `REQ.OFF`, below
`REQ.OFF + REQ.AVAIL` and inside the buffer, so an address never wraps (R42); they are at most `N(W)` (R225), at most `N(W) - 1` for
CANRD, none for LEN and the transform operations; ENC only writes. -/
def Obligations.AccessesStayInBounds : Prop :=
  ∀ (i : Instr) (s t : State), exec i s = .next t →
    ∃ log, t.bus = s.bus ++ log ∧
      (∀ x, x ∈ log → s.req.off ≤ x.addr ∧ x.addr < s.req.off + s.req.avail ∧ x.addr < 2 ^ s.aw) ∧
      (∀ m, i = .enc32 m ∨ i = .enc64 m → ∀ x, x ∈ log → ∃ a v, x = .write a v) ∧
      (∀ m, i = .enc32 m ∨ i = .dec32 m → log.length ≤ 5) ∧
      (∀ m, i = .enc64 m ∨ i = .dec64 m → log.length ≤ 9) ∧
      (i = .canrd32 → log.length ≤ 4) ∧ (i = .canrd64 → log.length ≤ 8) ∧
      ((∃ m, i = .len32 m ∨ i = .len64 m) ∨ i = .zze32 ∨ i = .zze64 ∨ i = .zzd32 ∨ i = .zzd64 → log = [])

/-- R20 (PO12): the result of an operation is a function of its request and of the declared bytes, and of nothing else: two states
that agree on them give the same response and the same accesses, and leave the declared bytes equal. -/
def Obligations.ResultDependsOnRequestAndBytes : Prop :=
  ∀ (i : Instr) (s t : State), s.aw = t.aw → s.req = t.req →
    (∀ a, s.req.off ≤ a → a < s.req.off + s.req.avail → s.byteAt a = t.byteAt a) →
    ∃ s' t' log, exec i s = .next s' ∧ exec i t = .next t' ∧ s'.resp = t'.resp ∧
      s'.bus = s.bus ++ log ∧ t'.bus = t.bus ++ log ∧
      (∀ a, s.req.off ≤ a → a < s.req.off + s.req.avail → s'.byteAt a = t'.byteAt a)

/-- R49: every operation is idempotent: issued twice with the same request it returns the same response and leaves the same bytes
as issued once. -/
def Obligations.OperationsAreIdempotent : Prop :=
  ∀ (i : Instr) (s t : State), exec i s = .next t →
    ∃ u, exec i t = .next u ∧ u.resp = t.resp ∧ ∀ a, u.byteAt a = t.byteAt a

/-- R22: fields an operation does not use are ignored. LEN and the transform operations ignore `REQ.OFF` and `REQ.AVAIL`, DEC and
CANRD ignore `REQ.VAL`, a 32-bit operation ignores `REQ.VAL[63:32]`, and none of them reads the command byte again. -/
def Obligations.UnusedFieldsIgnored : Prop :=
  ∀ (i : Instr) (s : State) (q : Request),
    ((∃ m, i = .len64 m) ∨ i = .zze64 ∨ i = .zzd64 → q.val = s.req.val) →
    ((∃ m, i = .len32 m) ∨ i = .zze32 ∨ i = .zzd32 → q.val.extractLsb' 0 32 = s.req.val.extractLsb' 0 32) →
    ((∃ m, i = .enc64 m) → q.val = s.req.val ∧ q.off = s.req.off ∧ q.avail = s.req.avail) →
    ((∃ m, i = .enc32 m) →
      q.val.extractLsb' 0 32 = s.req.val.extractLsb' 0 32 ∧ q.off = s.req.off ∧ q.avail = s.req.avail) →
    ((∃ m, i = .dec32 m ∨ i = .dec64 m) ∨ i = .canrd32 ∨ i = .canrd64 →
      q.off = s.req.off ∧ q.avail = s.req.avail) →
    ∃ t, exec i s = .next t ∧ exec i { s with req := q } = .next { t with req := q }
end

