-- ==== Sys2Proof/Laws/State.lean ====
section
/-! SUPPORT. One lemma for each field of the state and each update of it, so that no proof unfolds a record update; the
operations that only update fields, as those updates. -/

namespace Sys2Proof.Machine

namespace State

variable (s : State)

@[simp] theorem respond_aw (r : Response) : (s.respond r).aw = s.aw := rfl
@[simp] theorem respond_buf (r : Response) : (s.respond r).buf = s.buf := rfl
@[simp] theorem respond_req (r : Response) : (s.respond r).req = s.req := rfl
@[simp] theorem respond_resp (r : Response) : (s.respond r).resp = some r := rfl
@[simp] theorem respond_rdata (r : Response) : (s.respond r).rdata = s.rdata := rfl
@[simp] theorem respond_bus (r : Response) : (s.respond r).bus = s.bus := rfl
@[simp] theorem respond_host (r : Response) : (s.respond r).host = s.host := rfl

@[simp] theorem respondOk_aw (v : Word64) (n : Nat) : (s.respondOk v n).aw = s.aw := rfl
@[simp] theorem respondOk_buf (v : Word64) (n : Nat) : (s.respondOk v n).buf = s.buf := rfl
@[simp] theorem respondOk_req (v : Word64) (n : Nat) : (s.respondOk v n).req = s.req := rfl
@[simp] theorem respondOk_resp (v : Word64) (n : Nat) :
    (s.respondOk v n).resp = some ⟨.ok, v, BitVec.ofNat 4 n⟩ := rfl
@[simp] theorem respondOk_rdata (v : Word64) (n : Nat) : (s.respondOk v n).rdata = s.rdata := rfl
@[simp] theorem respondOk_bus (v : Word64) (n : Nat) : (s.respondOk v n).bus = s.bus := rfl
@[simp] theorem respondOk_host (v : Word64) (n : Nat) : (s.respondOk v n).host = s.host := rfl

@[simp] theorem clearPorts_aw : s.clearPorts.aw = s.aw := rfl
@[simp] theorem clearPorts_buf : s.clearPorts.buf = s.buf := rfl
@[simp] theorem clearPorts_req : s.clearPorts.req = s.req := rfl
@[simp] theorem clearPorts_resp : s.clearPorts.resp = none := rfl
@[simp] theorem clearPorts_rdata : s.clearPorts.rdata = none := rfl
@[simp] theorem clearPorts_bus : s.clearPorts.bus = [] := rfl
@[simp] theorem clearPorts_host : s.clearPorts.host = s.host := rfl

@[simp] theorem memRead_fst (a : Nat) : (s.memRead a).1 = s.byteAt a := rfl
@[simp] theorem memRead_aw (a : Nat) : (s.memRead a).2.aw = s.aw := rfl
@[simp] theorem memRead_buf (a : Nat) : (s.memRead a).2.buf = s.buf := rfl
@[simp] theorem memRead_req (a : Nat) : (s.memRead a).2.req = s.req := rfl
@[simp] theorem memRead_resp (a : Nat) : (s.memRead a).2.resp = s.resp := rfl
@[simp] theorem memRead_rdata (a : Nat) : (s.memRead a).2.rdata = s.rdata := rfl
@[simp] theorem memRead_bus (a : Nat) : (s.memRead a).2.bus = s.bus ++ [.read a] := rfl
@[simp] theorem memRead_host (a : Nat) : (s.memRead a).2.host = s.host := rfl

@[simp] theorem memWrite_aw (a : Nat) (v : Byte) : (s.memWrite a v).aw = s.aw := rfl
@[simp] theorem memWrite_buf (a : Nat) (v : Byte) : (s.memWrite a v).buf = s.buf.write a v := rfl
@[simp] theorem memWrite_req (a : Nat) (v : Byte) : (s.memWrite a v).req = s.req := rfl
@[simp] theorem memWrite_resp (a : Nat) (v : Byte) : (s.memWrite a v).resp = s.resp := rfl
@[simp] theorem memWrite_rdata (a : Nat) (v : Byte) : (s.memWrite a v).rdata = s.rdata := rfl
@[simp] theorem memWrite_bus (a : Nat) (v : Byte) : (s.memWrite a v).bus = s.bus ++ [.write a v] := rfl
@[simp] theorem memWrite_host (a : Nat) (v : Byte) : (s.memWrite a v).host = s.host := rfl

/-- What the buffer holds does not depend on the ports. -/
@[simp] theorem byteAt_respond (r : Response) (a : Nat) : (s.respond r).byteAt a = s.byteAt a := rfl
@[simp] theorem byteAt_respondOk (v : Word64) (n a : Nat) : (s.respondOk v n).byteAt a = s.byteAt a := rfl
@[simp] theorem byteAt_clearPorts (a : Nat) : s.clearPorts.byteAt a = s.byteAt a := rfl
@[simp] theorem byteAt_memRead (a b : Nat) : (s.memRead a).2.byteAt b = s.byteAt b := rfl
@[simp] theorem wireByte_memRead (a : Nat) : (s.memRead a).2.wireByte = s.wireByte := funext fun _ => rfl
@[simp] theorem addr_memRead (a i : Nat) : (s.memRead a).2.addr i = s.addr i := rfl
@[simp] theorem addr_memWrite (a i : Nat) (v : Byte) : (s.memWrite a v).addr i = s.addr i := rfl

/-- The 32-bit operand is the low half of `REQ.VAL`, the first byte stands at `REQ.OFF` (R22, R42). -/
theorem val32_eq : s.val32 = s.req.val.extractLsb' 0 32 := rfl
@[simp] theorem val64_eq : s.val64 = s.req.val := rfl
@[simp] theorem addr_zero : s.addr 0 = s.req.off := rfl

/-- The range check is R42's inequality. -/
theorem inRange_iff : s.inRange = true ↔ s.req.off + s.req.avail ≤ 2 ^ s.aw := by
  simp [inRange]

end State

/-- Raising an error is a next state: the response, and nothing else (R187). -/
@[simp] theorem raiseError_eq (e : Status) (s : State) :
    raiseError e s = .next { s with resp := some ⟨e, 0, 0⟩ } := rfl

end Sys2Proof.Machine
end

