-- ==== Sys2Proof/Laws/Memory.lean ====
section
/-! SUPPORT. The laws of the buffer: a read after a write, and every write keeps the canonical form. -/

namespace Sys2Proof.Machine

/-- Reading after one write: the value at the address written, and what was there before everywhere else. -/
theorem lookup_write (m : Memory) (a b : Nat) (v : Byte) :
    (m.write a v).lookup b = if b = a then some v else m.lookup b := by
  induction m with
  | nil => simp only [Memory.write, Memory.lookup]; split <;> split <;> simp_all
  | cons c m ih =>
    simp only [Memory.write]
    split_ifs with h1 h2 <;> simp only [Memory.lookup, ih] <;> split_ifs <;> first | rfl | omega

/-- The first address of a written buffer is the address written or the old first one. -/
theorem write_head (m : Memory) (a : Nat) (v : Byte) :
    ∃ c r, m.write a v = c :: r ∧ (c.1 = a ∨ ∃ d r', m = d :: r' ∧ c.1 = d.1) := by
  cases m with
  | nil => exact ⟨(a, v), [], rfl, .inl rfl⟩
  | cons d m =>
    simp only [Memory.write]
    split_ifs with h1 h2
    · exact ⟨_, _, rfl, .inl rfl⟩
    · exact ⟨_, _, rfl, .inl rfl⟩
    · exact ⟨_, _, rfl, .inr ⟨d, m, rfl, rfl⟩⟩

/-- The canonical form, one entry at a time: the head's address is below every address of the rest's head. -/
theorem wf_cons (c : Host.Cell) (m : Memory) :
    Memory.wf (c :: m) = true ↔ (∀ d r, m = d :: r → c.1 < d.1) ∧ Memory.wf m = true := by
  cases m with
  | nil => simp [Memory.wf]
  | cons d m => simp [Memory.wf]

/-- A write keeps the canonical form. -/
theorem write_wf (m : Memory) (a : Nat) (v : Byte) (h : m.wf = true) : (m.write a v).wf = true := by
  induction m with
  | nil => rfl
  | cons c m ih =>
    rw [wf_cons] at h
    simp only [Memory.write]
    split_ifs with h1 h2
    · rw [wf_cons, wf_cons]
      exact ⟨fun d r e => by cases e; exact h1, h⟩
    · rw [wf_cons]
      exact ⟨fun d r e => by subst h2; exact h.1 d r e, h.2⟩
    · rw [wf_cons]
      refine ⟨fun d r e => ?_, ih h.2⟩
      obtain ⟨x, y, hxy, hx⟩ := write_head m a v
      rw [hxy] at e
      cases e
      rcases hx with hx | ⟨d', r', hm, hx⟩
      · omega
      · rw [hx]; exact h.1 d' r' hm

/-- A write below a bound keeps every address below it. -/
theorem write_below (m : Memory) (n a : Nat) (v : Byte) (h : m.below n = true) (ha : a < n) :
    (m.write a v).below n = true := by
  induction m with
  | nil => simpa [Memory.write, Memory.below] using ha
  | cons c m ih =>
    simp only [Memory.below, List.all_cons, Bool.and_eq_true, decide_eq_true_eq] at h ih
    simp only [Memory.write]
    split_ifs with h1 h2 <;> simp only [Memory.below, List.all_cons, Bool.and_eq_true, decide_eq_true_eq]
    · exact ⟨ha, h.1, h.2⟩
    · exact ⟨ha, h.2⟩
    · exact ⟨h.1, ih h.2⟩

/-- The bytes of the buffer after one write. -/
theorem byteAt_memWrite (s : State) (a b : Nat) (v : Byte) :
    (s.memWrite a v).byteAt b = if b = a then v else s.byteAt b := by
  simp only [State.byteAt, State.memWrite_buf, lookup_write]
  split <;> rfl

/-- The bytes of the buffer after a sequence of writes from `a` upward. -/
theorem byteAt_memWriteAll (vs : List Byte) (s : State) (a b : Nat) :
    (s.memWriteAll a vs).byteAt b = if a ≤ b then (vs[b - a]?).getD (s.byteAt b) else s.byteAt b := by
  induction vs generalizing s a with
  | nil => simp [State.memWriteAll]
  | cons v vs ih =>
    simp only [State.memWriteAll, ih, byteAt_memWrite]
    rcases lt_trichotomy b a with h | h | h
    · rw [if_neg (by omega), if_neg (by omega), if_neg (by omega)]
    · subst h; simp
    · obtain ⟨d, rfl⟩ : ∃ d, b = a + 1 + d := ⟨b - (a + 1), by omega⟩
      rw [if_pos (show a + 1 ≤ a + 1 + d by omega), if_pos (show a ≤ a + 1 + d by omega),
        if_neg (show ¬a + 1 + d = a by omega), show a + 1 + d - a = d + 1 from by omega, show a + 1 + d - (a + 1) = d from by omega, List.getElem?_cons_succ]

/-- What a sequence of writes changes besides the bytes: the byte port, one write access a byte, ascending (R45). -/
theorem memWriteAll_eq (vs : List Byte) (s : State) (a : Nat) :
    s.memWriteAll a vs =
      { s with
        buf := (s.memWriteAll a vs).buf
        bus := s.bus ++ (vs.zipIdx a).map (fun p => Access.write p.2 p.1) } := by
  induction vs generalizing s a with
  | nil => simp [State.memWriteAll]
  | cons v vs ih => rw [State.memWriteAll, ih]; simp

/-- A sequence of writes keeps the canonical form, and stays below a bound it fits. -/
theorem memWriteAll_wf (vs : List Byte) (s : State) (a : Nat) (h : s.buf.wf = true) :
    (s.memWriteAll a vs).buf.wf = true := by
  induction vs generalizing s a with
  | nil => exact h
  | cons v vs ih => exact ih _ _ (write_wf _ _ _ h)

theorem memWriteAll_below (vs : List Byte) (s : State) (a n : Nat) (h : s.buf.below n = true)
    (ha : a + vs.length ≤ n) : (s.memWriteAll a vs).buf.below n = true := by
  induction vs generalizing s a with
  | nil => exact h
  | cons v vs ih =>
    simp only [List.length_cons] at ha
    exact ih _ _ (write_below _ _ _ _ h (by omega)) (by omega)

/-- The buffer right after reset is in canonical form. -/
theorem reset_buf_wf : State.reset.buf.wf = true := rfl

end Sys2Proof.Machine
end

