-- ==== Sys2Proof/Laws/Varint.lean ====
section
/-! SUPPORT. What the wire format's functions answer: the length is the least that fits, the byte sequence has that length,
and a reader's terminal index is the first byte with a clear continuation flag. -/

namespace Sys2Proof.Machine

/-- Everything the search for a length can answer: it lies among the candidates, it fits unless it is the one past them, and
no candidate before it fits. -/
theorem varLenFrom_spec (u n k : Nat) :
    k ≤ varLenFrom u n k ∧ varLenFrom u n k ≤ k + n ∧
      (varLenFrom u n k < k + n → u < 2 ^ (7 * varLenFrom u n k)) ∧
      ∀ j, k ≤ j → j < varLenFrom u n k → 2 ^ (7 * j) ≤ u := by
  induction n generalizing k with
  | zero => exact ⟨le_rfl, le_rfl, fun h => absurd h (lt_irrefl _), fun j h1 h2 => absurd h1 (by simp [varLenFrom] at h2; omega)⟩
  | succ n ih =>
    simp only [varLenFrom]
    split
    · next h => exact ⟨le_rfl, by omega, fun _ => h, fun j h1 h2 => by omega⟩
    · next h =>
      obtain ⟨h1, h2, h3, h4⟩ := ih (k + 1)
      refine ⟨by omega, by omega, fun hl => h3 (by omega), fun j hj hl => ?_⟩
      rcases Nat.eq_or_lt_of_le hj with rfl | hj
      · omega
      · exact h4 j hj hl

/-- The length of an encoding is 1 to `N` (R110). -/
theorem varLen_pos {W : Nat} (N : Nat) (u : BitVec W) : 1 ≤ varLen N u :=
  (varLenFrom_spec _ _ _).1

theorem varLen_le {W N : Nat} (hN : 1 ≤ N) (u : BitVec W) : varLen N u ≤ N := by
  have := (varLenFrom_spec u.toNat (N - 1) 1).2.1
  unfold varLen; omega

/-- The encoding has as many bytes as its length says, and byte `i` is R111's (R113 (a)). -/
@[simp] theorem encBytes_length {W : Nat} (N : Nat) (u : BitVec W) : (encBytes N u).length = varLen N u := by
  simp [encBytes]

theorem encBytes_getElem? {W : Nat} (N : Nat) (u : BitVec W) (i : Nat) (h : i < varLen N u) :
    (encBytes N u)[i]? = some (encByte u (varLen N u) i) := by
  simp [encBytes, h]

/-- Everything the search for the terminal index can answer: it lies among the candidates, every byte before it continues,
and it does not continue unless it is the one past them. -/
theorem terminalFrom_spec (b : Nat → Byte) (n i : Nat) :
    i ≤ terminalFrom b n i ∧ terminalFrom b n i ≤ i + n ∧
      (terminalFrom b n i < i + n → contFlag (b (terminalFrom b n i)) = false) ∧
      ∀ j, i ≤ j → j < terminalFrom b n i → contFlag (b j) = true := by
  induction n generalizing i with
  | zero => exact ⟨le_rfl, le_rfl, fun h => absurd h (lt_irrefl _), fun j h1 h2 => absurd h1 (by simp [terminalFrom] at h2; omega)⟩
  | succ n ih =>
    simp only [terminalFrom]
    split
    · next h =>
      obtain ⟨h1, h2, h3, h4⟩ := ih (i + 1)
      refine ⟨by omega, by omega, fun hl => h3 (by omega), fun j hj hl => ?_⟩
      rcases Nat.eq_or_lt_of_le hj with rfl | hj
      · exact h
      · exact h4 j hj hl
    · next h => exact ⟨le_rfl, by omega, fun _ => by simpa using h, fun j h1 h2 => by omega⟩

/-- The three facts of `terminalFrom_spec` leave one index only. -/
theorem terminalFrom_unique (b : Nat → Byte) (n i k : Nat) (h1 : i ≤ k) (h2 : k ≤ i + n)
    (h3 : k < i + n → contFlag (b k) = false) (h4 : ∀ j, i ≤ j → j < k → contFlag (b j) = true) :
    terminalFrom b n i = k := by
  obtain ⟨g1, g2, g3, g4⟩ := terminalFrom_spec b n i
  rcases lt_trichotomy (terminalFrom b n i) k with h | h | h
  · have := h4 _ g1 h; rw [g3 (by omega)] at this; cases this
  · exact h
  · have := g4 _ h1 h; rw [h3 (by omega)] at this; cases this

/-- The two constants of R7 as numbers. -/
@[simp] theorem maxLen32_eq : Config.maxLen32 = 5 := rfl
@[simp] theorem maxLen64_eq : Config.maxLen64 = 9 := rfl

/-- A payload whose length is below the maximum fits its groups, and no smaller number of groups holds it (R110). -/
theorem lt_of_varLen_lt {W N : Nat} (u : BitVec W) (h : varLen N u < N) : u.toNat < 2 ^ (7 * varLen N u) :=
  (varLenFrom_spec u.toNat (N - 1) 1).2.2.1 (by unfold varLen at *; omega)

theorem le_of_lt_varLen {W N : Nat} (u : BitVec W) (j : Nat) (h1 : 1 ≤ j) (h : j < varLen N u) :
    2 ^ (7 * j) ≤ u.toNat :=
  (varLenFrom_spec u.toNat (N - 1) 1).2.2.2 j h1 h

/-- The continuation flag says whether the byte is 128 or more. -/
theorem contFlag_eq (b : Byte) : contFlag b = decide (128 ≤ b.toNat) := by
  revert b; decide

theorem low7_toNat {W : Nat} (u : BitVec W) : (low7 u).toNat = u.toNat % 128 := by
  simp [low7]; omega

theorem flagged_low7_toNat {W : Nat} (u : BitVec W) :
    (0x80#8 ||| low7 u).toNat = 128 + u.toNat % 128 := by
  have h : ∀ b : BitVec 8, b.toNat < 128 → (0x80#8 ||| b).toNat = 128 + b.toNat := by decide
  have := low7_toNat u
  rw [h _ (by omega), this]

/-- A byte of an encoding as a number: a group with the flag, or the rest of the payload (R111). -/
theorem encByte_toNat_of_lt {W L i : Nat} (u : BitVec W) (h : i + 1 < L) :
    (encByte u L i).toNat = 128 + u.toNat / 2 ^ (7 * i) % 128 := by
  rw [encByte, if_pos h, flagged_low7_toNat, BitVec.toNat_ushiftRight, Nat.shiftRight_eq_div_pow]

theorem encByte_toNat_of_not_lt {W L i : Nat} (u : BitVec W) (h : ¬i + 1 < L) :
    (encByte u L i).toNat = u.toNat / 2 ^ (7 * i) % 256 := by
  rw [encByte, if_neg h, BitVec.toNat_setWidth, BitVec.toNat_ushiftRight, Nat.shiftRight_eq_div_pow]

theorem shiftLeft_setWidth_getLsbD (x : BitVec 64) (W n p : Nat) :
    ((x <<< n).setWidth W).getLsbD p =
      (decide (p < W) && decide (n ≤ p) && decide (p < 64) && x.getLsbD (p - n)) := by
  simp only [BitVec.getLsbD_setWidth, BitVec.getLsbD_shiftLeft]
  by_cases h1 : p < W <;> by_cases h2 : p < n <;> by_cases h3 : p < 64 <;> simp [h1, h2, h3]
  all_goals omega

/-- What a byte contributes to the accumulator, bit by bit (R131, R133). -/
theorem group_getLsbD {W i : Nat} (b : Byte) (p : Nat) (h : 7 * i + 7 ≤ 64) :
    (group W i b).getLsbD p =
      (decide (p < W) && decide (7 * i ≤ p) && decide (p < 7 * i + 7) && b.getLsbD (p - 7 * i)) := by
  rw [group, shiftLeft_setWidth_getLsbD]
  simp only [BitVec.getLsbD_setWidth]
  by_cases h1 : p < W <;> by_cases h2 : 7 * i ≤ p <;> by_cases h3 : p < 7 * i + 7 <;> simp [h1, h2, h3]
  · have : p - 7 * i < 64 := by omega
    have : p - 7 * i < 7 := by omega
    have : p < 64 := by omega
    simp [*]
  · intros; omega

theorem lastGroup_getLsbD {W i : Nat} (b : Byte) (p : Nat) (h : 7 * i + 8 ≤ 64) :
    (lastGroup W i b).getLsbD p = (decide (p < W) && decide (7 * i ≤ p) && b.getLsbD (p - 7 * i)) := by
  rw [lastGroup, shiftLeft_setWidth_getLsbD]
  simp only [BitVec.getLsbD_setWidth]
  by_cases h1 : p < W <;> by_cases h2 : 7 * i ≤ p <;> simp [h1, h2]
  by_cases h3 : p - 7 * i < 8
  · have : p - 7 * i < 64 := by omega
    have : p < 64 := by omega
    simp [*]
  · rw [BitVec.getLsbD_of_ge _ _ (by omega)]; simp

/-- A reader of the same bytes finds the same terminal index; over bytes that agree below `A` only, it does so or finds none
below `A` in either. -/
theorem terminalFrom_congr (b c : Nat → Byte) (A n i : Nat) (h : ∀ j, j < A → b j = c j) :
    terminalFrom b n i = terminalFrom c n i ∨ A ≤ terminalFrom b n i ∧ A ≤ terminalFrom c n i := by
  induction n generalizing i with
  | zero => exact .inl rfl
  | succ n ih =>
    by_cases hi : i < A
    · simp only [terminalFrom, h i hi]
      split
      · exact ih (i + 1)
      · exact .inl rfl
    · have hb := (terminalFrom_spec b (n + 1) i).1
      have hc := (terminalFrom_spec c (n + 1) i).1
      exact .inr ⟨by omega, by omega⟩

theorem accumulate_congr {W N : Nat} (b c : Nat → Byte) (n : Nat)
    (h : ∀ j, j < n → contribution W N b j = contribution W N c j) :
    accumulate W N b n = accumulate W N c n := by
  induction n with
  | zero => rfl
  | succ n ih => simp only [accumulate]; rw [ih fun j hj => h j (by omega), h n (by omega)]

end Sys2Proof.Machine
end

