-- ==== Sys2Proof/Laws/Ops.lean ====
section
/-! SUPPORT. What each shared operation answers, once: the loops of DEC and CANRD as the pure functions of R130 to R133 and
R160 with the reads they make, and the bodies shared by the two widths as case distinctions. -/

namespace Sys2Proof.Machine

/-- The read accesses of the bytes of indices `i .. i+n-1` of the encoded value, ascending (R46, R47). -/
def State.readsFrom (s : State) (i n : Nat) : List Access := (List.range' i n).map (fun j => .read (s.addr j))

@[simp] theorem readsFrom_memRead (s : State) (a i n : Nat) : (s.memRead a).2.readsFrom i n = s.readsFrom i n := rfl

theorem readsFrom_zero (s : State) (i : Nat) : s.readsFrom i 0 = [] := rfl

theorem readsFrom_succ (s : State) (i n : Nat) :
    s.readsFrom i (n + 1) = .read (s.addr i) :: s.readsFrom (i + 1) n := by
  simp [State.readsFrom, List.range'_succ]

/-- From the first byte of the value on, the reads are those of `REQ.OFF` and up. -/
theorem readsFrom_first (s : State) (n : Nat) :
    s.readsFrom 0 n = (List.range n).map (fun i => .read (s.req.off + i)) := by
  simp [State.readsFrom, State.addr, List.range_eq_range']

/-- DEC's loop one index at a time, over the wire bytes of the state. -/
theorem decodeLoop_zero {W : Nat} (i : Nat) (acc : BitVec W) (s : State) :
    decodeLoop 0 i acc s =
      if i < s.req.avail then (some (acc ||| lastGroup W i (s.wireByte i), i + 1), (s.memRead (s.addr i)).2)
      else (none, s) := rfl

theorem decodeLoop_succ {W : Nat} (n i : Nat) (acc : BitVec W) (s : State) :
    decodeLoop (n + 1) i acc s =
      if i < s.req.avail then
        if contFlag (s.wireByte i) then
          decodeLoop n (i + 1) (acc ||| group W i (s.wireByte i)) (s.memRead (s.addr i)).2
        else (some (acc ||| group W i (s.wireByte i), i + 1), (s.memRead (s.addr i)).2)
      else (none, s) := rfl

/-- The accumulator takes in one byte more (R131, R133). -/
theorem accumulate_last {W N i : Nat} (b : Nat → Byte) (h : i = N - 1) :
    accumulate W N b i ||| lastGroup W i (b i) = accumulate W N b (i + 1) := by
  simp [accumulate, contribution, h]

theorem accumulate_group {W N i : Nat} (b : Nat → Byte) (h : i ≠ N - 1) :
    accumulate W N b i ||| group W i (b i) = accumulate W N b (i + 1) := by
  simp [accumulate, contribution, h]

/-- The state after the reads of the bytes of indices `i .. i+n-1`, and nothing else. -/
def State.withReads (s : State) (i n : Nat) : State := { s with bus := s.bus ++ s.readsFrom i n }

theorem withReads_memRead (s : State) (i n : Nat) :
    (s.memRead (s.addr i)).2.withReads (i + 1) n = s.withReads i (n + 1) := by
  have h := readsFrom_memRead s (s.addr i) (i + 1) n
  simp only [State.withReads, h, readsFrom_succ]
  simp [State.memRead]

theorem memRead_eq_withReads (s : State) (i : Nat) : (s.memRead (s.addr i)).2 = s.withReads i 1 := by
  simp [State.withReads, readsFrom_succ, readsFrom_zero, State.memRead]

theorem withReads_zero (s : State) (i : Nat) : s.withReads i 0 = s := by
  simp [State.withReads, readsFrom_zero]

/-- The loop of DEC with `n` indices left before the last one, started on the accumulator of the bytes before `i`: it finds
the terminal index `k` of R130; when byte `k` is valid it answers the accumulator of R131 to R133 over the bytes `0 .. k` and
has read the bytes up to `k`, otherwise it has read every valid byte (R46, R137). -/
theorem decodeLoop_eq {W : Nat} (N n i k : Nat) (s : State) (hN : i + n = N - 1)
    (hk : terminalFrom s.wireByte n i = k) :
    decodeLoop n i (accumulate W N s.wireByte i) s =
      if k < s.req.avail then (some (accumulate W N s.wireByte (k + 1), k + 1), s.withReads i (k + 1 - i))
      else (none, s.withReads i (s.req.avail - i)) := by
  induction n generalizing i s with
  | zero =>
    obtain rfl : i = k := hk
    rw [decodeLoop_zero, accumulate_last _ (by omega), memRead_eq_withReads]
    by_cases hv : i < s.req.avail
    · rw [if_pos hv, if_pos hv, show i + 1 - i = 1 from by omega]
    · rw [if_neg hv, if_neg hv, show s.req.avail - i = 0 from by omega, withReads_zero]
  | succ n ih =>
    rw [decodeLoop_succ, accumulate_group _ (by omega)]
    have hik : i ≤ k := hk ▸ (terminalFrom_spec s.wireByte (n + 1) i).1
    rw [terminalFrom] at hk
    by_cases hv : i < s.req.avail
    · rw [if_pos hv]
      by_cases hc : contFlag (s.wireByte i) = true
      · rw [if_pos hc] at hk
        have hik' : i + 1 ≤ k := hk ▸ (terminalFrom_spec s.wireByte n (i + 1)).1
        have h := ih (i + 1) (s.memRead (s.addr i)).2 (by omega) (by simpa using hk)
        simp only [State.wireByte_memRead, State.memRead_req, withReads_memRead] at h
        rw [if_pos hc, h, show k + 1 - i = k + 1 - (i + 1) + 1 from by omega,
          show s.req.avail - i = s.req.avail - (i + 1) + 1 from by omega]
      · rw [if_neg hc] at hk
        subst hk
        rw [if_neg hc, if_pos hv, memRead_eq_withReads, show i + 1 - i = 1 from by omega]
    · rw [if_neg hv, if_neg (by omega), show s.req.avail - i = 0 from by omega, withReads_zero]

/-- Everything DEC can answer: ERR_RANGE; the value and the count, having read the bytes up to the terminal one; or
ERR_TRUNCATED, having read every valid byte. -/
theorem decodeOp_eq {W : Nat} (N : Nat) (m : Mode) (ext : BitVec W → Word64) (s : State) :
    decodeOp N m ext s =
      if s.inRange then
        if terminalIndex N s.wireByte < s.req.avail then
          .next { s with
            resp := some ⟨.ok, ext (unpayload m (accumulate W N s.wireByte (terminalIndex N s.wireByte + 1))),
              BitVec.ofNat 4 (terminalIndex N s.wireByte + 1)⟩
            bus := s.bus ++ s.readsFrom 0 (terminalIndex N s.wireByte + 1) }
        else
          .next { s with
            resp := some ⟨.truncated, 0, 0⟩
            bus := s.bus ++ s.readsFrom 0 s.req.avail }
      else .next { s with resp := some ⟨.range, 0, 0⟩ } := by
  have h : decodeLoop (N - 1) 0 (0 : BitVec W) s = _ := decodeLoop_eq N (N - 1) 0 _ s (by omega) rfl
  unfold decodeOp
  rw [h]
  by_cases hk : terminalIndex N s.wireByte < s.req.avail
  · have hk' : terminalFrom s.wireByte (N - 1) 0 < s.req.avail := hk
    simp only [if_pos hk, if_pos hk']; rfl
  · have hk' : ¬terminalFrom s.wireByte (N - 1) 0 < s.req.avail := hk
    simp only [if_neg hk, if_neg hk']; rfl

/-- CANRD's walk one byte at a time, over the wire bytes of the state. -/
theorem canReadLoop_succ (n i : Nat) (s : State) :
    canReadLoop (n + 1) i s =
      if contFlag (s.wireByte i) then canReadLoop n (i + 1) (s.memRead (s.addr i)).2
      else (true, (s.memRead (s.addr i)).2) := rfl

/-- The walk of CANRD over `n` bytes from index `i`: the answer of R160's second case, and the reads up to the first byte whose
flag is clear (R47). -/
theorem canReadLoop_eq (n i k : Nat) (s : State) (hk : terminalFrom s.wireByte n i = k) :
    canReadLoop n i s = (decide (k < i + n), s.withReads i (min (k + 1 - i) n)) := by
  induction n generalizing i s with
  | zero =>
    obtain rfl : i = k := hk
    simp [canReadLoop, withReads_zero]
  | succ n ih =>
    rw [canReadLoop_succ]
    rw [terminalFrom] at hk
    by_cases hc : contFlag (s.wireByte i) = true
    · rw [if_pos hc] at hk
      have hik : i + 1 ≤ k := hk ▸ (terminalFrom_spec s.wireByte n (i + 1)).1
      rw [if_pos hc, ih _ _ (by simpa using hk), withReads_memRead,
        show min (k + 1 - i) (n + 1) = min (k + 1 - (i + 1)) n + 1 from by omega,
        show i + 1 + n = i + (n + 1) from by omega]
    · rw [if_neg hc] at hk
      subst hk
      rw [if_neg hc, show min (i + 1 - i) (n + 1) = 1 from by omega, memRead_eq_withReads]
      simp

/-- Everything CANRD can answer: ERR_RANGE; the answer 1 without a read; or the walk's answer with its reads. -/
theorem canReadOp_eq (N : Nat) (s : State) :
    canReadOp N s =
      if s.inRange then
        if N ≤ s.req.avail then .next { s with resp := some ⟨.ok, answerVal true, 0⟩ }
        else
          .next { s with
            resp := some ⟨.ok, answerVal (decide (terminalFrom s.wireByte s.req.avail 0 < s.req.avail)), 0⟩
            bus := s.bus ++ s.readsFrom 0 (min (terminalFrom s.wireByte s.req.avail 0 + 1) s.req.avail) }
      else .next { s with resp := some ⟨.range, 0, 0⟩ } := by
  unfold canReadOp
  rw [canReadLoop_eq _ _ _ s rfl]
  split
  · split <;> simp [State.respondOk, State.respond, State.withReads]
  · simp

/-- Everything ENC can answer: ERR_RANGE, ERR_CAPACITY, or the writes and the count. -/
theorem encodeOp_eq {W : Nat} (N : Nat) (m : Mode) (v : BitVec W) (s : State) :
    encodeOp N m v s =
      if s.inRange then
        if s.req.avail < varLen N (payload m v) then .next { s with resp := some ⟨.capacity, 0, 0⟩ }
        else
          .next { s with
            buf := (s.memWriteAll (s.addr 0) (encBytes N (payload m v))).buf
            resp := some ⟨.ok, 0, BitVec.ofNat 4 (varLen N (payload m v))⟩
            bus := s.bus ++ ((encBytes N (payload m v)).zipIdx (s.addr 0)).map (fun p => Access.write p.2 p.1) }
      else .next { s with resp := some ⟨.range, 0, 0⟩ } := by
  unfold encodeOp
  split
  · split
    · simp
    · rw [memWriteAll_eq]; simp [State.respondOk, State.respond]
  · simp

/-- What LEN answers. -/
theorem lengthOp_eq {W : Nat} (N : Nat) (m : Mode) (v : BitVec W) (s : State) :
    lengthOp N m v s =
      .next { s with resp := some ⟨.ok, 0, BitVec.ofNat 4 (varLen N (payload m v))⟩ } := rfl

end Sys2Proof.Machine
end

