-- ==== Sys2Proof/Laws/PerInstr.lean ====
section
/-! SUPPORT. Facts about every operation as syntax, one lemma for each constructor. -/

/-- The operation's command byte is one of the 18 legal ones, and its `P` bit is 0 where the operation takes no mode
(R71, R73, R74). -/
def Sys2Proof.Laws.CommandByte.Statement (i : Sys2Proof.Instr) : Prop :=
  Sys2Proof.legalCmd (Sys2Proof.encode i) = true ∧
    (3 ≤ Sys2Proof.cmdFN (Sys2Proof.encode i) → Sys2Proof.cmdP (Sys2Proof.encode i) = false)

namespace Sys2Proof.Laws.CommandByte

theorem len32 (m : Mode) : Statement (.len32 m) := by cases m <;> exact ⟨rfl, by decide⟩
theorem len64 (m : Mode) : Statement (.len64 m) := by cases m <;> exact ⟨rfl, by decide⟩
theorem enc32 (m : Mode) : Statement (.enc32 m) := by cases m <;> exact ⟨rfl, by decide⟩
theorem enc64 (m : Mode) : Statement (.enc64 m) := by cases m <;> exact ⟨rfl, by decide⟩
theorem dec32 (m : Mode) : Statement (.dec32 m) := by cases m <;> exact ⟨rfl, by decide⟩
theorem dec64 (m : Mode) : Statement (.dec64 m) := by cases m <;> exact ⟨rfl, by decide⟩
theorem canrd32 : Statement .canrd32 := ⟨rfl, fun _ => rfl⟩
theorem canrd64 : Statement .canrd64 := ⟨rfl, fun _ => rfl⟩
theorem zze32 : Statement .zze32 := ⟨rfl, fun _ => rfl⟩
theorem zze64 : Statement .zze64 := ⟨rfl, fun _ => rfl⟩
theorem zzd32 : Statement .zzd32 := ⟨rfl, fun _ => rfl⟩
theorem zzd64 : Statement .zzd64 := ⟨rfl, fun _ => rfl⟩

end Sys2Proof.Laws.CommandByte
end

