-- ==== Sys2Proof/Laws/Step.lean ====
section
/-! SUPPORT. One step of the machine by the host's next move, and what every operation leaves alone. -/

namespace Sys2Proof.Machine

/-- A step by the host's next move. -/
theorem step_of_host_nil (s : State) (h : s.host = []) : step s = .next s.clearPorts := by
  simp [step, h, hostIdle]

theorem step_of_host_cons (s : State) (h : HostMove) (rest : List HostMove) (hs : s.host = h :: rest) :
    step s = serveMove h { s.clearPorts with host := rest } := by
  simp [step, hs]

/-- Serving a request whose command byte is legal, and one whose is not. -/
theorem serveRequest_of_ok (r : Request) (s : State) (i : Instr) (h : decode r.cmd = .ok i) :
    serveRequest r s = exec i { s with req := r } := by
  simp [serveRequest, h]

theorem serveRequest_of_error (r : Request) (s : State) (e : Reserved) (h : decode r.cmd = .error e) :
    serveRequest r s = raiseError .illegalCmd { s with req := r } := by
  simp [serveRequest, h]

/-- The next step of a state prepared for a table word serves that command byte, with the operands on the request port. -/
theorem step_withFetchWord (s : State) (nbits w : Nat) :
    step (s.withFetchWord nbits w) = serveRequest (s.tableRequest nbits w) s.clearPorts := by
  rw [step_of_host_cons (s.withFetchWord nbits w) (.request (s.tableRequest nbits w)) s.host rfl]; rfl

/-- The answer is a next state of `s` with a response: the buffer may have changed and accesses may have been added to the
byte port; every other field is as in `s`. -/
def Answers (s : State) (o : Result) : Prop :=
  ∃ b r log, o = .next { s with buf := b, resp := some r, bus := s.bus ++ log }

theorem answers_response (s : State) (r : Response) : Answers s (.next { s with resp := some r }) :=
  ⟨s.buf, r, [], by simp⟩

theorem answers_reads (s : State) (r : Response) (log : List Access) :
    Answers s (.next { s with resp := some r, bus := s.bus ++ log }) :=
  ⟨s.buf, r, log, rfl⟩

theorem encodeOp_answers {W : Nat} (N : Nat) (m : Mode) (v : BitVec W) (s : State) :
    Answers s (encodeOp N m v s) := by
  rw [encodeOp_eq]
  split_ifs
  · exact answers_response s _
  · exact ⟨_, _, _, rfl⟩
  · exact answers_response s _

theorem decodeOp_answers {W : Nat} (N : Nat) (m : Mode) (ext : BitVec W → Word64) (s : State) :
    Answers s (decodeOp N m ext s) := by
  rw [decodeOp_eq]
  split_ifs
  · exact answers_reads s _ _
  · exact answers_reads s _ _
  · exact answers_response s _

theorem canReadOp_answers (N : Nat) (s : State) : Answers s (canReadOp N s) := by
  rw [canReadOp_eq]
  split_ifs
  · exact answers_response s _
  · exact answers_reads s _ _
  · exact answers_response s _

/-- Every operation answers a next state with a response; it changes nothing but the buffer, the response and the record of the
byte port. -/
theorem exec_answers (i : Instr) (s : State) : Answers s (exec i s) := by
  cases i
  case len32 m => exact answers_response s _
  case len64 m => exact answers_response s _
  case enc32 m => exact encodeOp_answers _ _ _ _
  case enc64 m => exact encodeOp_answers _ _ _ _
  case dec32 m => exact decodeOp_answers _ _ _ _
  case dec64 m => exact decodeOp_answers _ _ _ _
  case canrd32 => exact canReadOp_answers _ _
  case canrd64 => exact canReadOp_answers _ _
  case zze32 => exact answers_response s _
  case zze64 => exact answers_response s _
  case zzd32 => exact answers_response s _
  case zzd64 => exact answers_response s _

end Sys2Proof.Machine
end

