-- ==== Sys2Proof/Tests/Slice0.lean ====
section
/-! SUPPORT. The model's own tests: command bytes from table T14, results from the spec's worked examples and vector tables
(95_test_vectors.md, 96_test_vectors_enc.md), the well-formedness checks on ill-formed terms, and for each statement with
hypotheses a concrete state that meets them. -/

namespace Sys2Proof.Tests

open Sys2Proof.Machine

/-- Bytes at ascending addresses from `a`. -/
def bytesAt (a : Nat) (bs : List Byte) : Memory := (bs.zipIdx a).map fun p => (p.2, p.1)

/-- A state with `AW = 16` (the vectors' width), a buffer and a request's operands. -/
def at16 (buf : Memory) (val : Word64) (avail off : Nat) : State :=
  { State.reset with aw := 16, buf := buf, req := { cmd := 0, val := val, off := off, avail := avail } }

/-- The response a result carries, if it is a next state. -/
def respOf : Result → Option Response
  | .next s => s.resp
  | _ => none

/-- What the buffer of a next state lists at `n` addresses from `a`. -/
def listed (a n : Nat) : Result → List (Option Byte)
  | .next s => (List.range n).map fun i => s.buf.lookup (a + i)
  | _ => []

/-- The accesses of a next state. -/
def busOf : Result → List Access
  | .next s => s.bus
  | _ => []

/-- A request record. -/
def reqOf (cmd : Byte) (val : Word64) (avail off : Nat) : Request :=
  { cmd := cmd, val := val, off := off, avail := avail }

/-! ### Well-formedness: each check refuses an ill-formed term -/

theorem test_legalCmd_refuses_mode : legalCmd 0x0E#8 = false := by decide
theorem test_legalCmd_refuses_function : legalCmd 0x18#8 = false := by decide
theorem test_legalCmd_refuses_z : legalCmd 0x20#8 = false := by decide
theorem test_legalCmd_accepts_last : legalCmd 0x15#8 = true := by decide
theorem test_request_refuses_off : (reqOf 0 0 0 65536).fits 16 = false := by decide
theorem test_request_refuses_avail : (reqOf 0 0 65536 0).fits 16 = false := by decide
theorem test_request_accepts : (reqOf 0xFF 0 65535 65535).fits 16 = true := by decide

/-! ### Decoding: every command byte of table T14, written out bit by bit from R70 and R73 -/

theorem test_decode_len32_z : decode 0b00000000#8 = .ok (.len32 .zigzag) := by rfl
theorem test_decode_len32_p : decode 0b00000010#8 = .ok (.len32 .raw) := by rfl
theorem test_decode_len64_z : decode 0b00000001#8 = .ok (.len64 .zigzag) := by rfl
theorem test_decode_len64_p : decode 0b00000011#8 = .ok (.len64 .raw) := by rfl
theorem test_decode_enc32_z : decode 0b00000100#8 = .ok (.enc32 .zigzag) := by rfl
theorem test_decode_enc32_p : decode 0b00000110#8 = .ok (.enc32 .raw) := by rfl
theorem test_decode_enc64_z : decode 0b00000101#8 = .ok (.enc64 .zigzag) := by rfl
theorem test_decode_enc64_p : decode 0b00000111#8 = .ok (.enc64 .raw) := by rfl
theorem test_decode_dec32_z : decode 0b00001000#8 = .ok (.dec32 .zigzag) := by rfl
theorem test_decode_dec32_p : decode 0b00001010#8 = .ok (.dec32 .raw) := by rfl
theorem test_decode_dec64_z : decode 0b00001001#8 = .ok (.dec64 .zigzag) := by rfl
theorem test_decode_dec64_p : decode 0b00001011#8 = .ok (.dec64 .raw) := by rfl
theorem test_decode_canrd32 : decode 0b00001100#8 = .ok (.canrd32) := by rfl
theorem test_decode_canrd64 : decode 0b00001101#8 = .ok (.canrd64) := by rfl
theorem test_decode_zze32 : decode 0b00010000#8 = .ok (.zze32) := by rfl
theorem test_decode_zze64 : decode 0b00010001#8 = .ok (.zze64) := by rfl
theorem test_decode_zzd32 : decode 0b00010100#8 = .ok (.zzd32) := by rfl
theorem test_decode_zzd64 : decode 0b00010101#8 = .ok (.zzd64) := by rfl

theorem test_decode_reserved_canrd_p : decode 0x0E#8 = .error .mode := by rfl
theorem test_decode_reserved_fn6 : decode 0x1A#8 = .error .function := by rfl
theorem test_decode_reserved_z : decode 0x26#8 = .error .zField := by rfl
/-- Program 1, request 1 of the spec, `LEN32.P 300`, and a negative operand. -/
theorem test_assemble_len : assemble (.len32 .raw) 300 7 9 = reqOf 0x02 300 0 0 := by decide
theorem test_assemble_enc : assemble (.enc32 .zigzag) (-1) 5 = reqOf 0x04 0xFFFFFFFFFFFFFFFF 5 0 := by decide
theorem test_table_word : decodeTableWord 8 0x15 = some .zzd64 := by decide
theorem test_table_word_reserved : decodeTableWord 8 0x13 = none := by decide

/-! ### Results -/

/-- Table T1: -1 takes 5 bytes under `P = 1`. -/
theorem test_len32_raw_minus1 :
    respOf (exec (.len32 .raw) (at16 [] 0xFFFFFFFFFFFFFFFF 0 0)) = some ⟨.ok, 0, 5⟩ := by decide

/-- Table T2, conflict C2: 1 takes 1 byte under `P = 0`, not 2. -/
theorem test_len32_zigzag_one :
    respOf (exec (.len32 .zigzag) (at16 [] 1 0 0)) = some ⟨.ok, 0, 1⟩ := by decide

/-- Table T8: 2^56 takes 9 bytes. -/
theorem test_len64_raw_2_56 :
    respOf (exec (.len64 .raw) (at16 [] 0x0100000000000000 0 0)) = some ⟨.ok, 0, 9⟩ := by decide

/-- Table T8: 2^34 takes 6 bytes under `P = 0`. -/
theorem test_len64_zigzag_2_34 :
    respOf (exec (.len64 .zigzag) (at16 [] 0x400000000 0 0)) = some ⟨.ok, 0, 6⟩ := by decide

/-- R114's example: 300 is `AC 02`, the bytes after it unchanged (table T12). -/
theorem test_enc32_raw_300 :
    listed 0x40 4 (exec (.enc32 .raw) (at16 (bytesAt 0x40 [0x11, 0x22, 0x33, 0x44]) 300 2 0x40)) =
      [some 0xAC, some 0x02, some 0x33, some 0x44] := by decide

/-- Table T12: 300 with one free byte is ERR_CAPACITY, nothing written. -/
theorem test_enc32_no_room :
    listed 0x40 2 (exec (.enc32 .raw) (at16 (bytesAt 0x40 [0x11, 0x22]) 300 1 0x40)) = [some 0x11, some 0x22] := by decide

/-- Table T7: 0x0123456789ABCDEF under `P = 0`. -/
theorem test_enc64_zigzag :
    listed 0 10 (exec (.enc64 .zigzag) (at16 [] 0x0123456789ABCDEF 9 0)) =
      [some 0xDE, some 0xB7, some 0xDE, some 0x9A, some 0xF1, some 0xD9, some 0xA2, some 0xA3, some 0x02, none] := by decide

/-- Table T7: -2^63 under `P = 1`, whose ninth byte `80` is payload. -/
theorem test_enc64_ninth_byte :
    listed 0 10 (exec (.enc64 .raw) (at16 [] 0x8000000000000000 9 0)) =
      [some 0x80, some 0x80, some 0x80, some 0x80, some 0x80, some 0x80, some 0x80, some 0x80, some 0x80, none] := by decide

/-- Table T10: bits 7:4 of a fifth byte are discarded. -/
theorem test_dec32_high_bits :
    respOf (exec (.dec32 .raw) (at16 (bytesAt 0 [0x80, 0x80, 0x80, 0x80, 0xF1]) 0 5 0)) =
      some ⟨.ok, 0x10000000, 5⟩ := by decide

/-- Table T10: `FF FF FF FF FF` is -2^31 under `P = 0`, sign-extended. -/
theorem test_dec32_zigzag :
    respOf (exec (.dec32 .zigzag) (at16 (bytesAt 0 [0xFF, 0xFF, 0xFF, 0xFF, 0xFF]) 0 5 0)) =
      some ⟨.ok, 0xFFFFFFFF80000000, 5⟩ := by decide

/-- Table T10: the ninth byte's bit 7 is payload bit 63. -/
theorem test_dec64_ninth_byte :
    respOf (exec (.dec64 .zigzag)
      (at16 (bytesAt 0 [0x80, 0x80, 0x80, 0x80, 0x80, 0x80, 0x80, 0x80, 0x80]) 0 9 0)) =
      some ⟨.ok, 0x4000000000000000, 9⟩ := by decide

/-- Table T12: three valid bytes that all continue are ERR_TRUNCATED after three reads. -/
theorem test_dec64_truncated_reads :
    busOf (exec (.dec64 .raw) (at16 (bytesAt 0x65 [0xFF, 0xFF, 0xFF, 0x7F]) 0 3 0x65)) =
      [.read 0x65, .read 0x66, .read 0x67] := by decide

/-- Table T11: five valid bytes answer 1 without a read. -/
theorem test_canrd32_fast :
    let r := exec .canrd32 (at16 (bytesAt 0 [0xFF, 0xFF, 0xFF, 0xFF, 0xFF]) 0 5 0)
    respOf r = some ⟨.ok, 1, 0⟩ ∧ busOf r = [] := by decide

/-- Table T11: `80 00 80` answers 1 after two reads. -/
theorem test_canrd32_walk :
    let r := exec .canrd32 (at16 (bytesAt 0 [0x80, 0x00, 0x80]) 0 3 0)
    respOf r = some ⟨.ok, 1, 0⟩ ∧ busOf r = [.read 0, .read 1] := by decide

/-- Table T11: the same five bytes answer 0 for the 64-bit width after five reads. -/
theorem test_canrd64_incomplete :
    let r := exec .canrd64 (at16 (bytesAt 0 [0xFF, 0xFF, 0xFF, 0xFF, 0xFF]) 0 5 0)
    respOf r = some ⟨.ok, 0, 0⟩ ∧ (busOf r).length = 5 := by decide

/-- R163: with no valid byte the answer is 0 and nothing is read. -/
theorem test_canrd64_empty :
    let r := exec .canrd64 (at16 (bytesAt 0 [0x00]) 0 0 0)
    respOf r = some ⟨.ok, 0, 0⟩ ∧ busOf r = [] := by decide

/-- Table T5: 2^30 maps to bit 31, returned sign-extended; the upper half is ignored. -/
theorem test_zze32_sign_extends :
    respOf (exec .zze32 (at16 [] 0xDEADBEEF40000000 0 0)) = some ⟨.ok, 0xFFFFFFFF80000000, 0⟩ := by decide

/-- Table T5: -2^31 - 1. -/
theorem test_zze64 :
    respOf (exec .zze64 (at16 [] 0xFFFFFFFF7FFFFFFF 0 0)) = some ⟨.ok, 0x0000000100000001, 0⟩ := by decide

/-- Table T5: the payload 3 is -2; the upper half is ignored. -/
theorem test_zzd32 :
    respOf (exec .zzd32 (at16 [] 0x1234567800000003 0 0)) = some ⟨.ok, 0xFFFFFFFFFFFFFFFE, 0⟩ := by decide

/-- R101's example: the payload 0x81 is -65. -/
theorem test_zzd64 :
    respOf (exec .zzd64 (at16 [] 0x81 0 0)) = some ⟨.ok, 0xFFFFFFFFFFFFFFBF, 0⟩ := by decide

/-! ### Ranges and priorities (table T13) -/

/-- The last byte of the buffer may be declared. -/
theorem test_range_equal_allowed :
    respOf (exec (.dec32 .raw) (at16 (bytesAt 0xFFFE [0xAC, 0x02]) 0 2 0xFFFE)) = some ⟨.ok, 300, 2⟩ := by decide

/-- One byte past the end is ERR_RANGE, before the fast path. -/
theorem test_range_before_fast_path :
    respOf (exec .canrd32 (at16 [] 0 5 0xFFFE)) = some ⟨.range, 0, 0⟩ := by decide

/-- ERR_RANGE outranks ERR_CAPACITY. -/
theorem test_range_outranks_capacity :
    respOf (exec (.enc32 .raw) (at16 [] 0xFFFFFFFFFFFFFFFF 2 0xFFFF)) = some ⟨.range, 0, 0⟩ := by decide

/-- A reserved command with a bad range is ERR_ILLEGAL_CMD. -/
theorem test_illegal_outranks_range :
    respOf (step { State.reset with host := [.request (reqOf 0x0E 0 0xFFFF 0xFFFF)] }) =
      some ⟨.illegalCmd, 0, 0⟩ := by decide

/-! ### Steps -/

/-- Program 1, request 1: `LEN32.P 300`. -/
theorem test_step_serves_request :
    respOf (step { State.reset with host := [.request (reqOf 0x02 300 0 0)] }) = some ⟨.ok, 0, 2⟩ := by decide

/-- A table word is served by the very next step, from reset: `ENC32` with no free byte is ERR_CAPACITY. -/
theorem test_step_withFetchWord :
    respOf (step (State.reset.withFetchWord 8 0x06)) = some ⟨.capacity, 0, 0⟩ := by decide

/-- R51: a host write lands in the buffer. -/
theorem test_step_host_write :
    listed 7 1 (step { State.reset with host := [.write 7 0xAB] }) = [some 0xAB] := by decide

/-- The buffer's list stays in address order, one entry an address. -/
theorem test_write_keeps_order :
    (Memory.write (Memory.write (Memory.write [] 5 1) 2 7) 5 9) = [(2, 7), (5, 9)] := by decide

/-! ### Witnesses: for each statement with hypotheses, a state that meets them -/

/-- `00 AC 02` and nine continuation bytes, for the witnesses. -/
def wire : Memory := bytesAt 0 [0x00, 0xAC, 0x02, 0xFF, 0xFF, 0xFF, 0xFF, 0xFF, 0xFF, 0xFF, 0xFF, 0xFF]

theorem witness_ReservedCommandIsIllegal :
    let s := { State.reset with host := [.request (reqOf 0xFF 7 3 9)] }
    s.host = .request (reqOf 0xFF 7 3 9) :: [] ∧ legalCmd (reqOf 0xFF 7 3 9).cmd = false := by decide

theorem witness_StepRunsDecodedRequest :
    let s := { State.reset with host := [.request (reqOf 0x0A 0 2 1)] }
    s.host = .request (reqOf 0x0A 0 2 1) :: [] ∧ decode (reqOf 0x0A 0 2 1).cmd = .ok (.dec32 .raw) :=
  ⟨rfl, rfl⟩

/-- One state for each clause of StepMakesHostMoves: idle, reset, a write and a read of the last byte, and of the first byte past
the end. -/
theorem witness_StepMakesHostMoves :
    State.reset.host = [] ∧
    ({ State.reset with host := [.reset] } : State).host = .reset :: [] ∧
    (let s := { State.reset with host := [.write 0xFFFF 1] }; s.host = .write 0xFFFF 1 :: [] ∧ 0xFFFF < 2 ^ s.aw) ∧
    (let s := { State.reset with host := [.read 0xFFFF] }; s.host = .read 0xFFFF :: [] ∧ 0xFFFF < 2 ^ s.aw) ∧
    (let s := { State.reset with host := [.write 0x10000 1] }; s.host = .write 0x10000 1 :: [] ∧ 2 ^ s.aw ≤ 0x10000) ∧
    (let s := { State.reset with host := [.read 0x10000] }; s.host = .read 0x10000 :: [] ∧ 2 ^ s.aw ≤ 0x10000) := by
  decide

theorem witness_FailedRequestLeavesNoTrace :
    let q := reqOf 0x0A 0 0 0
    let s := { State.reset with host := [.request q, .request q] }
    s.host = .request q :: .request q :: [] ∧ ∃ t r, step s = .next t ∧ t.resp = some r ∧ r.status ≠ .ok :=
  ⟨rfl, _, _, rfl, rfl, by decide⟩

theorem witness_EveryRequestGetsOneResponse :
    let s := { State.reset with host := [.request (reqOf 0x15 1 0 0)] }
    s.host = .request (reqOf 0x15 1 0 0) :: [] := by decide

theorem witness_HostReadsWhatItWrote :
    let s := { State.reset with host := [.write 3 1, .read 0xFFFF] }
    s.host = .write 3 1 :: .read 0xFFFF :: [] ∧ 3 < 2 ^ s.aw ∧ 0xFFFF < 2 ^ s.aw := by decide

theorem reset_inv : State.reset.Inv :=
  ⟨by decide, rfl, rfl, by decide, (fun r h => by cases h), rfl, rfl⟩

/-- A state that no run from reset with an empty buffer shows: written bytes, a request served, moves to come. -/
theorem inv_nontrivial :
    ({ at16 wire 0 2 1 with host := [.request (reqOf 0x0A 0 2 1), .write 0xFFFF 9, .read 0, .reset]
                            resp := some ⟨.ok, 300, 2⟩
                            bus := [.read 1, .read 2] } : State).Inv :=
  ⟨by decide, by decide, by decide, by decide, (fun r h => by cases h; decide), by decide, by decide⟩

theorem witness_StepKeepsInv :
    ∃ s t : State, s.Inv ∧ s.host ≠ [] ∧ step s = .next t :=
  ⟨_, _, inv_nontrivial, by decide, rfl⟩

theorem witness_StepNeverStops : ∃ s : State, s.Inv ∧ s.host ≠ [] := ⟨_, inv_nontrivial, by decide⟩

theorem witness_LenAgreesWithEnc :
    let s := at16 [] 300 2 0
    ((.len32 .raw, .enc32 .raw) : Instr × Instr) = (.len32 .raw, .enc32 .raw) ∧
      s.req.off + s.req.avail ≤ 2 ^ s.aw ∧ (2 : BitVec 4).toNat ≤ s.req.avail := by decide

theorem witness_LenResults :
    let s := at16 [] 300 0 0
    (300#32 = payload .raw (s.req.val.extractLsb' 0 32)) ∧ 300#64 = payload .raw s.req.val := by decide

theorem witness_TransformResults :
    let s := at16 [] 0x1200000003 0 0
    3#32 = s.req.val.extractLsb' 0 32 ∧ 0x1200000003#64 = s.req.val := by decide

/-- The longest and a short value, each with exactly enough room at the top of the buffer. -/
theorem witness_Enc32Writes :
    (let s := at16 [] 0xFFFFFFFFFFFFFFFF 5 0xFFFB
     0xFFFFFFFF#32 = payload .raw (s.req.val.extractLsb' 0 32) ∧ 5 = varLen 5 0xFFFFFFFF#32 ∧
      s.req.off + s.req.avail ≤ 2 ^ s.aw ∧ 5 ≤ s.req.avail) ∧
    (let s := at16 [] 0xFFFFFFFFFFFFFFFF 1 0xFFFF
     1#32 = payload .zigzag (s.req.val.extractLsb' 0 32) ∧ 1 = varLen 5 1#32 ∧
      s.req.off + s.req.avail ≤ 2 ^ s.aw ∧ 1 ≤ s.req.avail) := by decide

theorem witness_Enc64Writes :
    (let s := at16 [] 0xFFFFFFFFFFFFFFFF 9 0xFFF7
     0xFFFFFFFFFFFFFFFF#64 = payload .raw s.req.val ∧ 9 = varLen 9 0xFFFFFFFFFFFFFFFF#64 ∧
      s.req.off + s.req.avail ≤ 2 ^ s.aw ∧ 9 ≤ s.req.avail) ∧
    (let s := at16 [] 0xFFFFFFFFFFFFFFFF 1 0xFFFF
     1#64 = payload .zigzag s.req.val ∧ 1 = varLen 9 1#64 ∧
      s.req.off + s.req.avail ≤ 2 ^ s.aw ∧ 1 ≤ s.req.avail) := by decide

/-- The room one byte short and exactly `N(W)`. -/
theorem witness_EncCapacity :
    (let s := at16 [] 0xFFFFFFFFFFFFFFFF 4 0
     s.req.off + s.req.avail ≤ 2 ^ s.aw ∧ s.req.avail < varLen 5 (payload .raw (s.req.val.extractLsb' 0 32))) ∧
    (let s := at16 [] 0xFFFFFFFFFFFFFFFF 8 0
     s.req.off + s.req.avail ≤ 2 ^ s.aw ∧ s.req.avail < varLen 9 (payload .raw s.req.val)) ∧
    (let s := at16 [] 0 5 0xFFFB; s.req.off + s.req.avail ≤ 2 ^ s.aw ∧ 5 ≤ s.req.avail) ∧
    (let s := at16 [] 0 9 0xFFF7; s.req.off + s.req.avail ≤ 2 ^ s.aw ∧ 9 ≤ s.req.avail) := by decide

/-- A two-byte value, and one whose fifth byte is terminal by position. -/
theorem witness_Dec32Result :
    (let s := at16 wire 0 2 1
     s.req.off + s.req.avail ≤ 2 ^ s.aw ∧ 1 < s.req.avail ∧ 1 ≤ 4 ∧
      (∀ i, i < 1 → (s.byteAt (s.req.off + i)).getLsbD 7 = true) ∧
      (1 < 4 → (s.byteAt (s.req.off + 1)).getLsbD 7 = false)) ∧
    (let s := at16 wire 0 5 3
     s.req.off + s.req.avail ≤ 2 ^ s.aw ∧ 4 < s.req.avail ∧ 4 ≤ 4 ∧
      (∀ i, i < 4 → (s.byteAt (s.req.off + i)).getLsbD 7 = true) ∧
      (4 < 4 → (s.byteAt (s.req.off + 4)).getLsbD 7 = false)) := by decide

theorem witness_Dec64Result :
    (let s := at16 wire 0 2 1
     s.req.off + s.req.avail ≤ 2 ^ s.aw ∧ 1 < s.req.avail ∧ 1 ≤ 8 ∧
      (∀ i, i < 1 → (s.byteAt (s.req.off + i)).getLsbD 7 = true) ∧
      (1 < 8 → (s.byteAt (s.req.off + 1)).getLsbD 7 = false)) ∧
    (let s := at16 wire 0 9 3
     s.req.off + s.req.avail ≤ 2 ^ s.aw ∧ 8 < s.req.avail ∧ 8 ≤ 8 ∧
      (∀ i, i < 8 → (s.byteAt (s.req.off + i)).getLsbD 7 = true) ∧
      (8 < 8 → (s.byteAt (s.req.off + 8)).getLsbD 7 = false)) := by decide

/-- No valid byte, and `N(W) - 1` of them. -/
theorem witness_DecTruncated :
    (let s := at16 wire 0 0 3
     s.req.off + s.req.avail ≤ 2 ^ s.aw ∧ s.req.avail < 5 ∧
      ∀ i, i < s.req.avail → (s.byteAt (s.req.off + i)).getLsbD 7 = true) ∧
    (let s := at16 wire 0 4 3
     s.req.off + s.req.avail ≤ 2 ^ s.aw ∧ s.req.avail < 5 ∧
      ∀ i, i < s.req.avail → (s.byteAt (s.req.off + i)).getLsbD 7 = true) ∧
    (let s := at16 wire 0 8 3
     s.req.off + s.req.avail ≤ 2 ^ s.aw ∧ s.req.avail < 9 ∧
      ∀ i, i < s.req.avail → (s.byteAt (s.req.off + i)).getLsbD 7 = true) := by decide

theorem witness_FifthByteHighBitsIgnored :
    let s := at16 (bytesAt 0 [0xFF, 0xFF, 0xFF, 0xFF, 0x0F]) 0 5 0
    let t := at16 (bytesAt 0 [0xFF, 0xFF, 0xFF, 0xFF, 0xFF]) 0 5 0
    s.aw = t.aw ∧ s.req = t.req ∧ (∀ i, i < 4 → s.byteAt (s.req.off + i) = t.byteAt (t.req.off + i)) ∧
      (s.byteAt (s.req.off + 4)).extractLsb' 0 4 = (t.byteAt (t.req.off + 4)).extractLsb' 0 4 ∧ s ≠ t := by decide

/-- The fast path at its threshold, a complete value below it, and an incomplete one at each end. -/
theorem witness_CanReadResults :
    (let s := at16 wire 0 5 3; s.req.off + s.req.avail ≤ 2 ^ s.aw ∧ 5 ≤ s.req.avail) ∧
    (let s := at16 wire 0 4 1
     s.req.off + s.req.avail ≤ 2 ^ s.aw ∧ s.req.avail < 5 ∧ 1 < s.req.avail ∧
      (∀ i, i < 1 → (s.byteAt (s.req.off + i)).getLsbD 7 = true) ∧ (s.byteAt (s.req.off + 1)).getLsbD 7 = false) ∧
    (let s := at16 wire 0 8 3
     s.req.off + s.req.avail ≤ 2 ^ s.aw ∧ s.req.avail < 9 ∧
      ∀ i, i < s.req.avail → (s.byteAt (s.req.off + i)).getLsbD 7 = true) ∧
    (let s := at16 wire 0 0 3
     s.req.off + s.req.avail ≤ 2 ^ s.aw ∧ s.req.avail < 5 ∧
      ∀ i, i < s.req.avail → (s.byteAt (s.req.off + i)).getLsbD 7 = true) := by decide

/-- The predicate below the fast path's threshold, both answers, and at it. -/
theorem witness_CanReadIsThePredicate :
    (let s := at16 wire 0 4 1
     s.req.off + s.req.avail ≤ 2 ^ s.aw ∧ canRead 5 (fun i => s.byteAt (s.req.off + i)) s.req.avail = true) ∧
    (let s := at16 wire 0 8 3
     s.req.off + s.req.avail ≤ 2 ^ s.aw ∧ canRead 9 (fun i => s.byteAt (s.req.off + i)) s.req.avail = false) ∧
    (let s := at16 wire 0 9 3
     s.req.off + s.req.avail ≤ 2 ^ s.aw ∧ canRead 9 (fun i => s.byteAt (s.req.off + i)) s.req.avail = true) := by
  decide

theorem witness_CanReadAgreesWithDec :
    ((.canrd32, .dec32 .raw) : Instr × Instr) = (.canrd32, .dec32 .raw) := rfl

/-- A proper prefix and the full length of `AC 02`. -/
theorem witness_CanReadPrefixLaw :
    (let s := at16 wire 0 1 1
     s.req.off + s.req.avail ≤ 2 ^ s.aw ∧ s.byteAt (s.req.off + 0) = 0xAC ∧ s.byteAt (s.req.off + 1) = 0x02 ∧
      encBytes 5 (payload .raw 300#32) = [0xAC, 0x02]) ∧
    (let s := at16 wire 0 2 1
     s.req.off + s.req.avail ≤ 2 ^ s.aw ∧ s.byteAt (s.req.off + 0) = 0xAC ∧ s.byteAt (s.req.off + 1) = 0x02 ∧
      encBytes 9 (payload .raw 300#64) = [0xAC, 0x02]) := by decide

/-- An ENC of each width that succeeds, and a DEC request for exactly its bytes. -/
theorem witness_EncodeDecodeRoundTrip :
    (∃ t, exec (.enc32 .raw) (at16 [] 300 5 0xFFFB) = .next t ∧ t.resp = some ⟨.ok, 0, 2⟩ ∧
      (reqOf 0 0 2 0xFFFB).off = 0xFFFB ∧ (2 : BitVec 4).toNat ≤ (reqOf 0 0 2 0xFFFB).avail ∧
      (reqOf 0 0 2 0xFFFB).off + (reqOf 0 0 2 0xFFFB).avail ≤ 2 ^ 16) ∧
    (∃ t, exec (.enc64 .raw) (at16 [] 300 5 0xFFFB) = .next t ∧ t.resp = some ⟨.ok, 0, 2⟩ ∧
      (reqOf 0 0 2 0xFFFB).off = 0xFFFB ∧ (2 : BitVec 4).toNat ≤ (reqOf 0 0 2 0xFFFB).avail ∧
      (reqOf 0 0 2 0xFFFB).off + (reqOf 0 0 2 0xFFFB).avail ≤ 2 ^ 16) :=
  ⟨⟨_, rfl, by decide, by decide, by decide, by decide⟩, ⟨_, rfl, by decide, by decide, by decide, by decide⟩⟩

theorem witness_DecodeEncodeRestoresBytes :
    (let s := at16 wire 0 2 1
     s.req.off + s.req.avail ≤ 2 ^ s.aw ∧ varLen 5 300#32 ≤ s.req.avail ∧ s.byteAt (s.req.off + 0) = 0xAC ∧
      s.byteAt (s.req.off + 1) = 0x02 ∧ encBytes 5 300#32 = [0xAC, 0x02]) ∧
    (let s := at16 wire 0 2 1
     s.req.off + s.req.avail ≤ 2 ^ s.aw ∧ varLen 9 300#64 ≤ s.req.avail ∧ s.byteAt (s.req.off + 0) = 0xAC ∧
      s.byteAt (s.req.off + 1) = 0x02 ∧ encBytes 9 300#64 = [0xAC, 0x02]) := by decide

theorem witness_ModeMismatchIsDetermined :
    (∃ t, exec (.enc32 .raw) (at16 [] 300 2 0) = .next t ∧ t.resp = some ⟨.ok, 0, 2⟩) ∧
    (∃ t, exec (.enc32 .zigzag) (at16 [] 300 2 0) = .next t ∧ t.resp = some ⟨.ok, 0, 2⟩) ∧
    (∃ t, exec (.enc64 .raw) (at16 [] 300 2 0) = .next t ∧ t.resp = some ⟨.ok, 0, 2⟩) ∧
    (∃ t, exec (.enc64 .zigzag) (at16 [] 300 2 0) = .next t ∧ t.resp = some ⟨.ok, 0, 2⟩) :=
  ⟨⟨_, rfl, by decide⟩, ⟨_, rfl, by decide⟩, ⟨_, rfl, by decide⟩, ⟨_, rfl, by decide⟩⟩

theorem witness_WidthMismatchIsDetermined :
    ∃ t, exec (.enc32 .raw) (at16 [] 0xFFFFFFFFFFFFFFFF 5 0) = .next t ∧ t.resp = some ⟨.ok, 0, 5⟩ :=
  ⟨_, rfl, by decide⟩

theorem witness_ErrorHasNoEffect :
    let q := reqOf 0x0A 0 2 3
    let s := { at16 wire 0 0 0 with host := [.request q] }
    s.host = .request q :: [] ∧ ∃ t r, step s = .next t ∧ t.resp = some r ∧ r.status ≠ .ok :=
  ⟨rfl, _, _, rfl, rfl, by decide⟩

theorem witness_SuccessfulResponseForm :
    ∃ t r, exec (.dec32 .raw) (at16 wire 0 2 1) = .next t ∧ t.resp = some r ∧ r.status = .ok :=
  ⟨_, _, rfl, rfl, by decide⟩

theorem witness_NonStoringFrame :
    (∀ m, (Instr.dec32 .raw) ≠ .enc32 m ∧ (Instr.dec32 .raw) ≠ .enc64 m) ∧
      ∃ t, exec (.dec32 .raw) (at16 wire 0 2 1) = .next t :=
  ⟨fun m => by cases m <;> decide, _, rfl⟩

theorem witness_AccessesStayInBounds : ∃ t, exec (.enc64 .raw) (at16 [] 300 2 0xFFFE) = .next t := ⟨_, rfl⟩

/-- Two states with different bytes outside the declared ones. -/
theorem witness_ResultDependsOnRequestAndBytes :
    let s := at16 wire 0 2 1
    let t := at16 (wire.write 3 0) 0 2 1
    s.aw = t.aw ∧ s.req = t.req ∧ s ≠ t ∧
      s.byteAt 1 = t.byteAt 1 ∧ s.byteAt 2 = t.byteAt 2 ∧ s.req.off = 1 ∧ s.req.avail = 2 := by decide

theorem witness_OperationsAreIdempotent : ∃ t, exec (.enc32 .raw) (at16 wire 300 2 1) = .next t := ⟨_, rfl⟩

theorem witness_UnusedFieldsIgnored :
    let s := at16 wire 7 2 1
    let q := reqOf 0xFF 0x1234 2 1
    s.req ≠ q ∧ q.off = s.req.off ∧ q.avail = s.req.avail := by decide

theorem witness_ZigZagMagnitude : 1 ≤ 1 ∧ 1 ≤ 31 ∧ 31 ≤ 31 ∧ 63 ≤ 63 := by decide

theorem witness_VarLenIsLeast : 1 ≤ 1 ∧ 1 ≤ 5 ∧ 5 ≤ 5 ∧ 9 ≤ 9 := by decide

theorem witness_CommandByteRoundTrip : decode 0x15#8 = .ok .zzd64 := rfl

theorem witness_EncodingLoopAgrees : 2 ^ 63 ≤ (0x8000000000000000#64).toNat := by decide

theorem witness_EncodingShape :
    0 + 1 < varLen 5 300#32 ∧ (encBytes 5 300#32)[0]? = some 0xAC ∧ (encBytes 5 300#32)[varLen 5 300#32 - 1]? = some 0x02 ∧
    0 + 1 < varLen 9 300#64 ∧ (encBytes 9 300#64)[0]? = some 0xAC ∧
    (encBytes 9 300#64)[varLen 9 300#64 - 1]? = some 0x02 := by decide

theorem witness_EncodingPrefixFree : encBytes 5 300#32 <+: encBytes 5 300#32 ∧ encBytes 9 0#64 <+: encBytes 9 0#64 :=
  ⟨List.prefix_refl _, List.prefix_refl _⟩

theorem witness_LengthBySignedValue : 1 ≤ 1 ∧ 1 ≤ 4 ∧ 4 ≤ 4 ∧ 8 ≤ 8 := by decide

end Sys2Proof.Tests
end

/-! # The invariant is kept by every step (O13)

First which responses are legal and which accesses lie inside the declared bytes; then the rules that rebuild the
invariant after each kind of state change; then the shared operations, `exec`, the host's moves and `step`, each from the
lemma that says what it can answer. -/

namespace Sys2Proof.Machine

/-! ### Legal responses -/

/-- R187: an error's response carries zeros, so it is legal whatever its code is. -/
theorem legal_zeros (e : Status) : Response.legal ⟨e, 0, 0⟩ = true := by
  cases e <;> rfl

/-- R8, R24: a success is legal when its count, which is cut to 4 bits, is at most 9. -/
theorem legal_ok (v : Word64) {n : Nat} (h : n ≤ 9) : Response.legal ⟨.ok, v, BitVec.ofNat 4 n⟩ = true := by
  simp only [Response.legal, BitVec.toNat_ofNat, maxLen64_eq, decide_eq_true_eq]
  omega

/-- The count a reader answers is at most `N` (R130). -/
theorem terminalIndex_lt {N : Nat} (hN : 1 ≤ N) (b : Nat → Byte) : terminalIndex N b < N := by
  obtain ⟨-, hle, -, -⟩ := terminalFrom_spec b (N - 1) 0
  unfold terminalIndex
  omega

/-! ### Accesses inside the declared bytes -/

/-- R42: after the range check every access of a declared byte is one of the buffer's bytes too. -/
theorem allows_of_inRange {s : State} {x : Access} (hr : s.inRange = true) (hlo : s.req.off ≤ x.addr)
    (hhi : x.addr < s.req.off + s.req.avail) : s.allows x = true := by
  rw [State.inRange_iff] at hr
  simp only [State.allows, Bool.and_eq_true, decide_eq_true_eq]
  omega

/-- R46, R47: reads of the first `n` bytes of the value are allowed when `n` bytes are declared. -/
theorem readsFrom_allowed {s : State} (hr : s.inRange = true) {n : Nat} (hn : n ≤ s.req.avail) :
    (s.readsFrom 0 n).all s.allows = true := by
  rw [readsFrom_first, List.all_eq_true]
  intro x hx
  obtain ⟨i, hi, rfl⟩ := List.mem_map.mp hx
  rw [List.mem_range] at hi
  exact allows_of_inRange hr (Nat.le_add_right _ _) (Nat.add_lt_add_left (hi.trans_le hn) _)

/-- R45: writes of a sequence of bytes from `REQ.OFF` upward are allowed when that many bytes are declared. -/
theorem writes_allowed {s : State} (hr : s.inRange = true) {vs : List Byte} (hn : vs.length ≤ s.req.avail) :
    ((vs.zipIdx s.req.off).map fun p => Access.write p.2 p.1).all s.allows = true := by
  rw [List.all_eq_true]
  intro x hx
  obtain ⟨p, hp, rfl⟩ := List.mem_map.mp hx
  have hlo : s.req.off ≤ p.2 := List.le_snd_of_mem_zipIdx hp
  have hhi : p.2 < s.req.off + vs.length := List.snd_lt_add_of_mem_zipIdx hp
  exact allows_of_inRange hr hlo (hhi.trans_le (Nat.add_le_add_left hn _))

/-! ### Rebuilding the invariant after a change of the state -/

namespace State.Inv

variable {s : State}

/-- The byte port may take further accesses inside the declared bytes. -/
theorem append_bus (hs : s.Inv) {log : List Access} (hl : log.all s.allows = true) :
    ({ s with bus := s.bus ++ log } : State).Inv :=
  { hs with bus_inside := by rw [List.all_append, Bool.and_eq_true]; exact ⟨hs.bus_inside, hl⟩ }

/-- The response port may take any legal response. -/
theorem set_resp (hs : s.Inv) {r : Response} (hr : r.legal = true) : ({ s with resp := some r } : State).Inv :=
  { hs with resp_legal := fun r' h => by cases h; exact hr }

/-- The buffer may become any canonical list within its `2^AW` bytes. -/
theorem set_buf (hs : s.Inv) {b : Memory} (hw : b.wf = true) (hb : b.below (2 ^ s.aw) = true) :
    ({ s with buf := b } : State).Inv :=
  { hs with buf_wf := hw, buf_below := hb }

/-- The host's read data is unconstrained. -/
theorem set_rdata (hs : s.Inv) (d : Option Byte) : ({ s with rdata := d } : State).Inv :=
  { hs with }

/-- The request port may take a new request that fits, as long as no access of an earlier one stands on the byte port. -/
theorem set_req (hs : s.Inv) (hbus : s.bus = []) {q : Request} (hq : q.fits s.aw = true) :
    ({ s with req := q } : State).Inv :=
  { hs with req_fits := hq, bus_inside := by rw [hbus]; rfl }

/-- The invariant says nothing of empty ports. -/
theorem clearPorts (hs : s.Inv) : s.clearPorts.Inv :=
  { hs with bus_inside := rfl, resp_legal := fun _ h => nomatch h }

/-- The host's next move fits, and the invariant holds once it is taken off the list. -/
theorem pop_host (hs : s.Inv) {h : HostMove} {rest : List HostMove} (hh : s.host = h :: rest) :
    h.fits s.aw = true ∧ ({ s with host := rest } : State).Inv := by
  have hfits := hs.host_fits
  rw [hh, List.all_cons, Bool.and_eq_true] at hfits
  exact ⟨hfits.1, { hs with host_fits := hfits.2 }⟩

end State.Inv

/-! ### The operations -/

/-- Where the outcome is a next state, that state satisfies the invariant. -/
def NextInv (o : Result) : Prop := ∀ t, o = .next t → t.Inv

theorem nextInv_next {t : State} (ht : t.Inv) : NextInv (.next t) :=
  fun _ h => by cases h; exact ht

theorem nextInv_fault (r : Fault) : NextInv (.fault r) :=
  fun _ h => by cases h

theorem raiseError_nextInv {s : State} (hs : s.Inv) (e : Status) : NextInv (raiseError e s) := by
  rw [raiseError_eq]
  exact nextInv_next (hs.set_resp (legal_zeros e))

theorem respondOk_nextInv {s : State} (hs : s.Inv) (v : Word64) {n : Nat} (hn : n ≤ 9) :
    NextInv (.next (s.respondOk v n)) :=
  nextInv_next (hs.set_resp (legal_ok v hn))

theorem lengthOp_nextInv {W N : Nat} (h1 : 1 ≤ N) (h9 : N ≤ 9) (m : Mode) (v : BitVec W) {s : State} (hs : s.Inv) :
    NextInv (lengthOp N m v s) :=
  respondOk_nextInv hs 0 ((varLen_le h1 _).trans h9)

/-- ENC: after the range and the capacity check the bytes it stores lie inside the declared ones, hence in the buffer. -/
theorem encodeOp_nextInv {W N : Nat} (h1 : 1 ≤ N) (h9 : N ≤ 9) (m : Mode) (v : BitVec W) {s : State} (hs : s.Inv) :
    NextInv (encodeOp N m v s) := by
  rw [encodeOp_eq]
  split_ifs with hr hc
  · exact nextInv_next (hs.set_resp (legal_zeros .capacity))
  · have hlen : (encBytes N (payload m v)).length ≤ s.req.avail := by rw [encBytes_length]; omega
    have hend : s.req.off + (encBytes N (payload m v)).length ≤ 2 ^ s.aw :=
      (Nat.add_le_add_left hlen _).trans (s.inRange_iff.mp hr)
    have hbus := hs.append_bus (writes_allowed hr hlen)
    have hbuf := hbus.set_buf (memWriteAll_wf _ s _ hs.buf_wf) (memWriteAll_below _ s _ _ hs.buf_below hend)
    exact nextInv_next (hbuf.set_resp (legal_ok 0 ((varLen_le h1 _).trans h9)))
  · exact nextInv_next (hs.set_resp (legal_zeros .range))

/-- DEC: it reads up to the terminal byte when that one is declared, else exactly the declared bytes. -/
theorem decodeOp_nextInv {W N : Nat} (h1 : 1 ≤ N) (h9 : N ≤ 9) (m : Mode) (ext : BitVec W → Word64) {s : State}
    (hs : s.Inv) : NextInv (decodeOp N m ext s) := by
  rw [decodeOp_eq]
  split_ifs with hr hk
  · have hcnt : terminalIndex N s.wireByte + 1 ≤ 9 := (terminalIndex_lt h1 s.wireByte).trans_le h9
    exact nextInv_next ((hs.append_bus (readsFrom_allowed hr hk)).set_resp (legal_ok _ hcnt))
  · exact nextInv_next ((hs.append_bus (readsFrom_allowed hr le_rfl)).set_resp (legal_zeros .truncated))
  · exact nextInv_next (hs.set_resp (legal_zeros .range))

/-- CANRD: its walk never leaves the declared bytes, and its count is 0. -/
theorem canReadOp_nextInv (N : Nat) {s : State} (hs : s.Inv) : NextInv (canReadOp N s) := by
  rw [canReadOp_eq]
  split_ifs with hr hN
  · exact nextInv_next (hs.set_resp (legal_ok _ (Nat.zero_le 9)))
  · have hn : min (terminalFrom s.wireByte s.req.avail 0 + 1) s.req.avail ≤ s.req.avail := Nat.min_le_right _ _
    exact nextInv_next ((hs.append_bus (readsFrom_allowed hr hn)).set_resp (legal_ok _ (Nat.zero_le 9)))
  · exact nextInv_next (hs.set_resp (legal_zeros .range))

/-- Every operation keeps the invariant. -/
theorem exec_nextInv (i : Instr) {s : State} (hs : s.Inv) : NextInv (exec i s) := by
  cases i with
  | len32 m => exact lengthOp_nextInv (by decide) (by decide) m s.val32 hs
  | len64 m => exact lengthOp_nextInv (by decide) (by decide) m s.val64 hs
  | enc32 m => exact encodeOp_nextInv (by decide) (by decide) m s.val32 hs
  | enc64 m => exact encodeOp_nextInv (by decide) (by decide) m s.val64 hs
  | dec32 m => exact decodeOp_nextInv (by decide) (by decide) m sext32 hs
  | dec64 m => exact decodeOp_nextInv (by decide) (by decide) m full64 hs
  | canrd32 => exact canReadOp_nextInv _ hs
  | canrd64 => exact canReadOp_nextInv _ hs
  | zze32 => exact respondOk_nextInv hs _ (Nat.zero_le 9)
  | zze64 => exact respondOk_nextInv hs _ (Nat.zero_le 9)
  | zzd32 => exact respondOk_nextInv hs _ (Nat.zero_le 9)
  | zzd64 => exact respondOk_nextInv hs _ (Nat.zero_le 9)

/-! ### The host's moves and the step -/

theorem serveRequest_nextInv {s : State} (hs : s.Inv) (hbus : s.bus = []) {q : Request} (hq : q.fits s.aw = true) :
    NextInv (serveRequest q s) := by
  have hreq := hs.set_req hbus hq
  cases hd : decode q.cmd with
  | ok i => rw [serveRequest_of_ok q s i hd]; exact exec_nextInv i hreq
  | error e => rw [serveRequest_of_error q s e hd]; exact raiseError_nextInv hreq .illegalCmd

theorem hostWrite_nextInv {s : State} (hs : s.Inv) (a : Nat) (v : Byte) : NextInv (hostWrite a v s) := by
  unfold hostWrite
  split_ifs with ha
  · exact nextInv_next (hs.set_buf (write_wf _ a v hs.buf_wf) (write_below _ _ a v hs.buf_below ha))
  · exact nextInv_fault _

theorem hostRead_nextInv {s : State} (hs : s.Inv) (a : Nat) : NextInv (hostRead a s) := by
  unfold hostRead
  split_ifs
  · exact nextInv_next (hs.set_rdata _)
  · exact nextInv_fault _

/-- Every move of the host that it can make, made on an empty byte port, keeps the invariant. -/
theorem serveMove_nextInv {s : State} (hs : s.Inv) (hbus : s.bus = []) {h : HostMove} (hh : h.fits s.aw = true) :
    NextInv (serveMove h s) := by
  cases h with
  | request q => exact serveRequest_nextInv hs hbus hh
  | write a v => exact hostWrite_nextInv hs a v
  | read a => exact hostRead_nextInv hs a
  | reset => exact nextInv_next hs

theorem step_nextInv {s : State} (hs : s.Inv) : NextInv (step s) := by
  cases hh : s.host with
  | nil => rw [step_of_host_nil s hh]; exact nextInv_next hs.clearPorts
  | cons h rest =>
    rw [step_of_host_cons s h rest hh]
    obtain ⟨hfits, hrest⟩ := hs.clearPorts.pop_host hh
    exact serveMove_nextInv hrest rfl hfits

/-- Settles O13: the invariant goes through the port clearing, the host's move and the operation it requests. -/
theorem stepKeepsInv : Obligations.StepKeepsInv :=
  fun _ t hs ht => step_nextInv hs t ht

end Sys2Proof.Machine

/-! # Requests, frames and the fields an operation reads (O6, O8 to O10, O12, O14, O48, O49, O51, O53)

First the step and the requests it serves; then the operations that only read, which give the frames; then the form of a
successful response; then which fields of a state an operation's answer depends on. -/

namespace Sys2Proof.Machine

/-! ### Steps and the requests they serve -/

/-- R185: every status code is one of 0 to 4. -/
theorem status_code_le (e : Status) : e.code.toNat ≤ 4 := by
  cases e <;> decide

/-- R25: a step starts by clearing the output ports, so it cannot see what stands on them. -/
theorem step_clearPorts (s : State) : step s.clearPorts = step s := rfl

/-- A step that serves a request puts it on the request port in place of the one before. -/
theorem serveRequest_setReq (q q' : Request) (s : State) : serveRequest q { s with req := q' } = serveRequest q s := rfl

theorem step_of_host_request (s : State) (q : Request) (rest : List HostMove) (hs : s.host = .request q :: rest) :
    step s = serveRequest q { s.clearPorts with host := rest } :=
  step_of_host_cons s (.request q) rest hs

/-- Every request, legal or reserved, is answered. -/
theorem serveRequest_answers (q : Request) (s : State) : Answers { s with req := q } (serveRequest q s) := by
  cases hd : decode q.cmd with
  | ok i => rw [serveRequest_of_ok q s i hd]; exact exec_answers i _
  | error e => rw [serveRequest_of_error q s e hd]; exact answers_response _ _

/-- A move the host can make on this buffer ends in a next state. -/
theorem serveMove_next (h : HostMove) (s : State) (hf : h.fits s.aw = true) : ∃ t, serveMove h s = .next t := by
  cases h with
  | request q =>
    obtain ⟨b, r, log, hn⟩ := serveRequest_answers q s
    exact ⟨_, hn⟩
  | write a v => exact ⟨_, if_pos (of_decide_eq_true hf)⟩
  | read a => exact ⟨_, if_pos (of_decide_eq_true hf)⟩
  | reset => exact ⟨s, rfl⟩

/-- Settles O6: serving a legal request is running its operation. -/
theorem stepRunsDecodedRequest : Obligations.StepRunsDecodedRequest := by
  intro s q rest i hs hd
  rw [step_of_host_request s q rest hs, serveRequest_of_ok q _ i hd]
  rfl

/-- Settles O8: the two states are one state once their output ports are cleared. -/
theorem stepIgnoresOutputPorts : Obligations.StepIgnoresOutputPorts := by
  intro s r d b
  rw [← step_clearPorts s, ← step_clearPorts { s with resp := r, rdata := d, bus := b }]
  rfl

/-- Settles O10: the answer changes the buffer, the response and the byte port's record, so the rest is the request's. -/
theorem everyRequestGetsOneResponse : Obligations.EveryRequestGetsOneResponse := by
  intro s q rest hs
  obtain ⟨b, r, log, hn⟩ := serveRequest_answers q { s.clearPorts with host := rest }
  rw [step_of_host_request s q rest hs]
  exact ⟨_, r, hn, rfl, status_code_le r.status, rfl, rfl, rfl, rfl⟩

/-- Settles O12: every field of the reset state is closed. -/
theorem resetSatisfiesInv : Obligations.ResetSatisfiesInv where
  aw_min := by decide
  buf_wf := reset_buf_wf
  buf_below := rfl
  req_fits := by decide
  resp_legal := fun _ h => nomatch h
  bus_inside := rfl
  host_fits := rfl

/-- Settles O14: the invariant says that the host's next move is one it can make. -/
theorem stepNeverStops : Obligations.StepNeverStops := by
  intro s hs
  cases hh : s.host with
  | nil => exact ⟨_, step_of_host_nil s hh⟩
  | cons h rest =>
    obtain ⟨hf, -⟩ := hs.pop_host hh
    rw [step_of_host_cons s h rest hh]
    exact serveMove_next h _ hf

/-! ### Operations that only read -/

/-- The answer is a response and the reads of the first `n` bytes of the value, and nothing else. -/
def OnlyReads (s : State) (o : Result) : Prop :=
  ∃ r n, o = .next { s with resp := some r, bus := s.bus ++ s.readsFrom 0 n }

/-- An answer without an access is the case of no bytes. -/
theorem onlyReads_response (s : State) (r : Response) : OnlyReads s (.next { s with resp := some r }) :=
  ⟨r, 0, by simp [readsFrom_zero]⟩

theorem decodeOp_onlyReads {W : Nat} (N : Nat) (m : Mode) (ext : BitVec W → Word64) (s : State) :
    OnlyReads s (decodeOp N m ext s) := by
  rw [decodeOp_eq]
  split_ifs
  · exact ⟨_, _, rfl⟩
  · exact ⟨_, _, rfl⟩
  · exact onlyReads_response s _

theorem canReadOp_onlyReads (N : Nat) (s : State) : OnlyReads s (canReadOp N s) := by
  rw [canReadOp_eq]
  split_ifs
  · exact onlyReads_response s _
  · exact ⟨_, _, rfl⟩
  · exact onlyReads_response s _

/-- Every operation but ENC only reads. -/
theorem exec_onlyReads (i : Instr) (s : State) (hi : ∀ m, i ≠ .enc32 m ∧ i ≠ .enc64 m) : OnlyReads s (exec i s) := by
  cases i with
  | len32 | len64 | zze32 | zze64 | zzd32 | zzd64 => exact onlyReads_response s _
  | enc32 m => exact absurd rfl (hi m).1
  | enc64 m => exact absurd rfl (hi m).2
  | dec32 m | dec64 m => exact decodeOp_onlyReads _ m _ s
  | canrd32 | canrd64 => exact canReadOp_onlyReads _ s

/-- Settles O49: an answer that only reads has the buffer of the state before. -/
theorem nonStoringFrame : Obligations.NonStoringFrame := by
  intro i s t hi ht
  obtain ⟨r, n, hn⟩ := exec_onlyReads i s hi
  obtain rfl : t = _ := Host.Outcome.next.inj (ht.symm.trans hn)
  refine ⟨rfl, fun _ => rfl, fun x hx => (List.mem_append.mp hx).imp_right fun hx => ?_⟩
  obtain ⟨j, -, hj⟩ := List.mem_map.mp hx
  exact ⟨s.addr j, hj.symm⟩

/-! ### Requests that fail -/

/-- The outcome's response is an error. -/
def Fails (o : Result) : Prop := ∃ t r, o = .next t ∧ t.resp = some r ∧ r.status ≠ .ok

/-- R116, R181: ENC checks before its first write, so an ENC that fails only reads (it makes no access at all). -/
theorem encodeOp_onlyReads_of_fails {W N : Nat} {m : Mode} {v : BitVec W} {s : State} (h : Fails (encodeOp N m v s)) :
    OnlyReads s (encodeOp N m v s) := by
  rw [encodeOp_eq] at h ⊢
  split_ifs at h ⊢
  · exact onlyReads_response s _
  · obtain ⟨t, r, ht, hr, hne⟩ := h
    cases ht; cases hr
    exact absurd rfl hne
  · exact onlyReads_response s _

theorem exec_onlyReads_of_fails {i : Instr} {s : State} (h : Fails (exec i s)) : OnlyReads s (exec i s) := by
  by_cases hi : ∀ m, i ≠ .enc32 m ∧ i ≠ .enc64 m
  · exact exec_onlyReads i s hi
  · obtain ⟨m, rfl | rfl⟩ : ∃ m, i = .enc32 m ∨ i = .enc64 m := by
      simpa only [not_forall, not_and_or, not_not] using hi
    · exact encodeOp_onlyReads_of_fails h
    · exact encodeOp_onlyReads_of_fails h

/-- R187: a request that fails only reads. -/
theorem serveRequest_onlyReads_of_fails {q : Request} {s : State} (h : Fails (serveRequest q s)) :
    OnlyReads { s with req := q } (serveRequest q s) := by
  cases hd : decode q.cmd with
  | ok i => rw [serveRequest_of_ok q s i hd] at h ⊢; exact exec_onlyReads_of_fails h
  | error e => rw [serveRequest_of_error q s e hd]; exact onlyReads_response _ _

/-- Settles O9: a failed request leaves the output ports and the request port changed, and the next request clears the former
and replaces the latter. -/
theorem failedRequestLeavesNoTrace : Obligations.FailedRequestLeavesNoTrace := by
  intro s t q q' rest r hs ht hr hne
  rw [step_of_host_request s q _ hs] at ht
  obtain ⟨r', n, hn⟩ := serveRequest_onlyReads_of_fails ⟨t, r, ht, hr, hne⟩
  obtain rfl : t = _ := Host.Outcome.next.inj (ht.symm.trans hn)
  rw [step_of_host_request _ q' rest rfl, step_of_host_request { s with host := .request q' :: rest } q' rest rfl]
  exact serveRequest_setReq q' q { s.clearPorts with host := rest }

/-! ### The form of a successful response -/

/-- Where the outcome's response is a success, its value and count satisfy `P`. -/
def OkSatisfies (P : Word64 → BitVec 4 → Prop) (o : Result) : Prop :=
  ∀ t r, o = .next t → t.resp = some r → r.status = .ok → P r.val r.cnt

theorem okSatisfies_next {P : Word64 → BitVec 4 → Prop} {t : State} {e : Status} {v : Word64} {n : BitVec 4}
    (ht : t.resp = some ⟨e, v, n⟩) (h : e = .ok → P v n) : OkSatisfies P (.next t) := by
  intro t' r ht' hr hok
  cases ht'
  cases ht.symm.trans hr
  exact h hok

/-- The count is 1 to `N`. -/
def CountUpTo (N : Nat) (n : BitVec 4) : Prop := 1 ≤ n.toNat ∧ n.toNat ≤ N

/-- A count of 1 to `N` keeps its value in the 4 bits of `RESP.CNT` (R8). -/
theorem countUpTo_ofNat {N k : Nat} (hN : N ≤ 9) (h1 : 1 ≤ k) (hk : k ≤ N) : CountUpTo N (BitVec.ofNat 4 k) := by
  unfold CountUpTo
  rw [BitVec.toNat_ofNat]
  omega

theorem countUpTo_varLen {W N : Nat} (h1 : 1 ≤ N) (h9 : N ≤ 9) (u : BitVec W) :
    CountUpTo N (BitVec.ofNat 4 (varLen N u)) :=
  countUpTo_ofNat h9 (varLen_pos N u) (varLen_le h1 u)

theorem lengthOp_okSatisfies {W N : Nat} (h1 : 1 ≤ N) (h9 : N ≤ 9) (m : Mode) (v : BitVec W) (s : State) :
    OkSatisfies (fun val cnt => val = 0 ∧ CountUpTo N cnt) (lengthOp N m v s) :=
  okSatisfies_next rfl fun _ => ⟨rfl, countUpTo_varLen h1 h9 _⟩

theorem encodeOp_okSatisfies {W N : Nat} (h1 : 1 ≤ N) (h9 : N ≤ 9) (m : Mode) (v : BitVec W) (s : State) :
    OkSatisfies (fun val cnt => val = 0 ∧ CountUpTo N cnt) (encodeOp N m v s) := by
  rw [encodeOp_eq]
  split_ifs
  · exact okSatisfies_next rfl nofun
  · exact okSatisfies_next rfl fun _ => ⟨rfl, countUpTo_varLen h1 h9 _⟩
  · exact okSatisfies_next rfl nofun

theorem decodeOp_okSatisfies {W N : Nat} (h1 : 1 ≤ N) (h9 : N ≤ 9) (m : Mode) (ext : BitVec W → Word64) (s : State) :
    OkSatisfies (fun val cnt => (∃ x, val = ext x) ∧ CountUpTo N cnt) (decodeOp N m ext s) := by
  rw [decodeOp_eq]
  split_ifs
  · exact okSatisfies_next rfl fun _ =>
      ⟨⟨_, rfl⟩, countUpTo_ofNat h9 (Nat.succ_pos _) (terminalIndex_lt h1 s.wireByte)⟩
  · exact okSatisfies_next rfl nofun
  · exact okSatisfies_next rfl nofun

theorem answerVal_eq_zero_or_one (b : Bool) : answerVal b = 0 ∨ answerVal b = 1 := by
  cases b
  · exact .inl rfl
  · exact .inr rfl

theorem canReadOp_okSatisfies (N : Nat) (s : State) :
    OkSatisfies (fun val cnt => (val = 0 ∨ val = 1) ∧ cnt = 0) (canReadOp N s) := by
  rw [canReadOp_eq]
  split_ifs
  · exact okSatisfies_next rfl fun _ => ⟨answerVal_eq_zero_or_one _, rfl⟩
  · exact okSatisfies_next rfl fun _ => ⟨answerVal_eq_zero_or_one _, rfl⟩
  · exact okSatisfies_next rfl nofun

/-- R11, R24: the low half of a sign-extended 32-bit result is the result. -/
theorem sext32_low (x : Word32) : (sext32 x).extractLsb' 0 32 = x := by
  ext p hp
  simp [sext32, BitVec.getElem_signExtend, hp, show p < 64 by omega]

/-- A sign-extended 32-bit result is sign-extended from its own low half. -/
theorem eq_signExtend_low {val : Word64} (h : ∃ x, val = sext32 x) : val = (val.extractLsb' 0 32).signExtend 64 := by
  obtain ⟨x, rfl⟩ := h
  rw [sext32_low]
  rfl

/-- Settles O48: clause by clause, from what the shared operations answer. -/
theorem successfulResponseForm : Obligations.SuccessfulResponseForm := by
  intro i s t r ht hr hok
  refine ⟨?_, ?_, ?_, ?_, ?_, ?_, ?_⟩
  · rintro m (rfl | rfl)
    · exact lengthOp_okSatisfies (by decide) (by decide) m s.val32 s t r ht hr hok
    · exact encodeOp_okSatisfies (by decide) (by decide) m s.val32 s t r ht hr hok
  · rintro m (rfl | rfl)
    · exact lengthOp_okSatisfies (by decide) (by decide) m s.val64 s t r ht hr hok
    · exact encodeOp_okSatisfies (by decide) (by decide) m s.val64 s t r ht hr hok
  · rintro m rfl
    obtain ⟨hval, hcnt⟩ := decodeOp_okSatisfies (by decide) (by decide) m sext32 s t r ht hr hok
    exact ⟨eq_signExtend_low hval, hcnt⟩
  · rintro m rfl
    exact (decodeOp_okSatisfies (by decide) (by decide) m full64 s t r ht hr hok).2
  · rintro (rfl | rfl)
    · exact canReadOp_okSatisfies _ s t r ht hr hok
    · exact canReadOp_okSatisfies _ s t r ht hr hok
  · rintro (rfl | rfl)
    · cases ht; cases hr; exact ⟨eq_signExtend_low ⟨_, rfl⟩, rfl⟩
    · cases ht; cases hr; exact ⟨eq_signExtend_low ⟨_, rfl⟩, rfl⟩
  · rintro (rfl | rfl)
    · cases ht; cases hr; rfl
    · cases ht; cases hr; rfl

/-! ### What an answer depends on -/

/-- The state after an answer: the response `r`, the accesses `log`, and the bytes `vs` stored from `a` upward. -/
def State.answer (s : State) (r : Response) (log : List Access) (a : Nat) (vs : List Byte) : State :=
  { s with buf := (s.memWriteAll a vs).buf, resp := some r, bus := s.bus ++ log }

/-- Two states are answered alike: the same response, the same accesses and the same bytes stored. -/
def SameAnswer (s t : State) (o o' : Result) : Prop :=
  ∃ r log a vs, o = .next (s.answer r log a vs) ∧ o' = .next (t.answer r log a vs)

theorem sameAnswer_log (s t : State) (r : Response) (log : List Access) :
    SameAnswer s t (.next { s with resp := some r, bus := s.bus ++ log })
      (.next { t with resp := some r, bus := t.bus ++ log }) :=
  ⟨r, log, 0, [], rfl, rfl⟩

theorem sameAnswer_response (s t : State) (r : Response) :
    SameAnswer s t (.next { s with resp := some r }) (.next { t with resp := some r }) := by
  simpa only [List.append_nil] using sameAnswer_log s t r []

/-- The same bytes stored at the same place keep equal bytes equal. -/
theorem byteAt_answer_congr {s t : State} {b : Nat} (h : s.byteAt b = t.byteAt b) (r : Response) (log : List Access)
    (a : Nat) (vs : List Byte) : (s.answer r log a vs).byteAt b = (t.answer r log a vs).byteAt b := by
  change (s.memWriteAll a vs).byteAt b = (t.memWriteAll a vs).byteAt b
  rw [byteAt_memWriteAll, byteAt_memWriteAll, h]

/-- What is stored in the buffer does not depend on the request port. -/
theorem memWriteAll_setReq (vs : List Byte) (s : State) (q : Request) (a : Nat) :
    ({ s with req := q } : State).memWriteAll a vs = { s.memWriteAll a vs with req := q } := by
  induction vs generalizing s a with
  | nil => rfl
  | cons v vs ih => exact ih (s.memWrite a v) (a + 1)

theorem answer_setReq (s : State) (q : Request) (r : Response) (log : List Access) (a : Nat) (vs : List Byte) :
    ({ s with req := q } : State).answer r log a vs = { s.answer r log a vs with req := q } := by
  simp only [State.answer, memWriteAll_setReq]

/-- The two states agree on `AW`, `REQ.OFF` and `REQ.AVAIL`: on where the declared bytes are (R42). -/
structure SameWindow (s t : State) : Prop where
  aw : s.aw = t.aw
  off : s.req.off = t.req.off
  avail : s.req.avail = t.req.avail

/-- The two states agree on the declared bytes, as bytes of the value from index 0 on (R20, R42). -/
def SameWire (s t : State) : Prop := ∀ j, j < s.req.avail → s.wireByte j = t.wireByte j

namespace SameWindow

variable {s t : State}

theorem addr (h : SameWindow s t) (i : Nat) : s.addr i = t.addr i := by
  simp only [State.addr, h.off]

theorem inRange (h : SameWindow s t) : s.inRange = t.inRange := by
  simp only [State.inRange, h.aw, h.off, h.avail]

theorem readsFrom (h : SameWindow s t) (i n : Nat) : s.readsFrom i n = t.readsFrom i n := by
  simp only [State.readsFrom, h.addr]

end SameWindow

theorem respondOk_sameAnswer (s t : State) {v w : Word64} (hv : v = w) (n : Nat) :
    SameAnswer s t (.next (s.respondOk v n)) (.next (t.respondOk w n)) := by
  subst hv
  exact sameAnswer_response s t _

theorem lengthOp_sameAnswer {W : Nat} (N : Nat) (m : Mode) {v w : BitVec W} (hv : v = w) (s t : State) :
    SameAnswer s t (lengthOp N m v s) (lengthOp N m w t) := by
  subst hv
  exact sameAnswer_response s t _

theorem encodeOp_sameAnswer {W : Nat} (N : Nat) (m : Mode) {v w : BitVec W} (hv : v = w) {s t : State}
    (h : SameWindow s t) : SameAnswer s t (encodeOp N m v s) (encodeOp N m w t) := by
  subst hv
  rw [encodeOp_eq, encodeOp_eq, h.inRange, h.avail, h.addr]
  split_ifs
  · exact sameAnswer_response s t _
  · exact ⟨_, _, _, _, rfl, rfl⟩
  · exact sameAnswer_response s t _

/-- The accumulator over declared bytes only (R131). -/
theorem accumulate_sameWire {s t : State} (hw : SameWire s t) (W N : Nat) {n : Nat} (hn : n ≤ s.req.avail) :
    accumulate W N s.wireByte n = accumulate W N t.wireByte n :=
  accumulate_congr _ _ n fun j hj => by simp only [contribution, hw j (hj.trans_le hn)]

/-- DEC: the terminal byte is found at the same index, or in neither state among the declared bytes. -/
theorem decodeOp_sameAnswer {W : Nat} (N : Nat) (m : Mode) (ext : BitVec W → Word64) {s t : State}
    (h : SameWindow s t) (hw : SameWire s t) : SameAnswer s t (decodeOp N m ext s) (decodeOp N m ext t) := by
  have hterm : terminalIndex N s.wireByte = terminalIndex N t.wireByte ∨
      s.req.avail ≤ terminalIndex N s.wireByte ∧ s.req.avail ≤ terminalIndex N t.wireByte :=
    terminalFrom_congr s.wireByte t.wireByte _ (N - 1) 0 hw
  rw [decodeOp_eq, decodeOp_eq, ← h.inRange, ← h.avail, ← h.readsFrom, ← h.readsFrom]
  rcases hterm with hk | ⟨hs, ht⟩
  · rw [← hk]
    split_ifs with hr hlt
    · rw [accumulate_sameWire hw W N hlt]
      exact sameAnswer_log s t _ _
    · exact sameAnswer_log s t _ _
    · exact sameAnswer_response s t _
  · rw [if_neg hs.not_gt, if_neg ht.not_gt]
    split_ifs
    · exact sameAnswer_log s t _ _
    · exact sameAnswer_response s t _

/-- CANRD: its walk ends at the same index, since past the last declared byte it stops in either state. -/
theorem canReadOp_sameAnswer (N : Nat) {s t : State} (h : SameWindow s t) (hw : SameWire s t) :
    SameAnswer s t (canReadOp N s) (canReadOp N t) := by
  have hk : terminalFrom s.wireByte s.req.avail 0 = terminalFrom t.wireByte s.req.avail 0 := by
    obtain ⟨-, hs, -, -⟩ := terminalFrom_spec s.wireByte s.req.avail 0
    obtain ⟨-, ht, -, -⟩ := terminalFrom_spec t.wireByte s.req.avail 0
    rcases terminalFrom_congr s.wireByte t.wireByte _ s.req.avail 0 hw with hk | ⟨hs', ht'⟩
    · exact hk
    · omega
  rw [canReadOp_eq, canReadOp_eq, hk, h.readsFrom, h.inRange, h.avail]
  split_ifs
  · exact sameAnswer_response s t _
  · exact sameAnswer_log s t _ _
  · exact sameAnswer_response s t _

/-- The two states agree on what the operation reads (R20, R22, R75): LEN and the transform operations a value, ENC a value and
the window it writes to, DEC and CANRD the window and its bytes. -/
def SameInputs (i : Instr) (s t : State) : Prop :=
  match i with
  | .len32 _ | .zze32 | .zzd32 => s.val32 = t.val32
  | .len64 _ | .zze64 | .zzd64 => s.val64 = t.val64
  | .enc32 _ => s.val32 = t.val32 ∧ SameWindow s t
  | .enc64 _ => s.val64 = t.val64 ∧ SameWindow s t
  | .dec32 _ | .dec64 _ | .canrd32 | .canrd64 => SameWindow s t ∧ SameWire s t

/-- R20: an operation's answer is a function of what it reads. -/
theorem exec_sameAnswer (i : Instr) {s t : State} (h : SameInputs i s t) : SameAnswer s t (exec i s) (exec i t) := by
  cases i with
  | len32 m => exact lengthOp_sameAnswer _ m h s t
  | len64 m => exact lengthOp_sameAnswer _ m h s t
  | enc32 m => exact encodeOp_sameAnswer _ m h.1 h.2
  | enc64 m => exact encodeOp_sameAnswer _ m h.1 h.2
  | dec32 m | dec64 m => exact decodeOp_sameAnswer _ m _ h.1 h.2
  | canrd32 | canrd64 => exact canReadOp_sameAnswer _ h.1 h.2
  | zze32 => exact respondOk_sameAnswer s t (congrArg (fun x => sext32 (zigZagEnc x)) h) 0
  | zze64 => exact respondOk_sameAnswer s t (congrArg zigZagEnc h) 0
  | zzd32 => exact respondOk_sameAnswer s t (congrArg (fun x => sext32 (zigZagDec x)) h) 0
  | zzd64 => exact respondOk_sameAnswer s t (congrArg zigZagDec h) 0

/-- The same request and the same declared bytes are all that any operation reads. -/
theorem sameInputs_of_sameReq (i : Instr) {s t : State} (haw : s.aw = t.aw) (hreq : s.req = t.req)
    (hw : SameWire s t) : SameInputs i s t := by
  have hwin : SameWindow s t := ⟨haw, congrArg Request.off hreq, congrArg Request.avail hreq⟩
  have h32 : s.val32 = t.val32 := congrArg (fun q : Request => trunc32 q.val) hreq
  have h64 : s.val64 = t.val64 := congrArg Request.val hreq
  cases i with
  | len32 | zze32 | zzd32 => exact h32
  | len64 | zze64 | zzd64 => exact h64
  | enc32 => exact ⟨h32, hwin⟩
  | enc64 => exact ⟨h64, hwin⟩
  | dec32 | dec64 | canrd32 | canrd64 => exact ⟨hwin, hw⟩

/-- Settles O51: the two states are answered alike, and the same stores keep equal bytes equal. -/
theorem resultDependsOnRequestAndBytes : Obligations.ResultDependsOnRequestAndBytes := by
  intro i s t haw hreq hbytes
  have hw : SameWire s t := fun j hj => by
    simp only [State.wireByte, State.addr, ← hreq]
    exact hbytes _ (Nat.le_add_right _ _) (Nat.add_lt_add_left hj _)
  obtain ⟨r, log, a, vs, hs, ht⟩ := exec_sameAnswer i (sameInputs_of_sameReq i haw hreq hw)
  exact ⟨_, _, log, hs, ht, rfl, rfl, rfl, fun b hlo hhi => byteAt_answer_congr (hbytes b hlo hhi) r log a vs⟩

/-- Another request with the same offset and available count declares the same bytes. -/
theorem sameWindow_setReq (s : State) {q : Request} (h : q.off = s.req.off ∧ q.avail = s.req.avail) :
    SameWindow s { s with req := q } ∧ SameWire s { s with req := q } := by
  obtain ⟨ho, ha⟩ := h
  exact ⟨⟨rfl, ho.symm, ha.symm⟩, fun j _ => congrArg (fun o => s.byteAt (o + j)) ho.symm⟩

/-- Settles O53: the premises say that the operation reads the same in both states. -/
theorem unusedFieldsIgnored : Obligations.UnusedFieldsIgnored := by
  intro i s q h64 h32 he64 he32 hwin
  have hin : SameInputs i s { s with req := q } := by
    cases i with
    | len32 m => exact (h32 (.inl ⟨m, rfl⟩)).symm
    | zze32 => exact (h32 (.inr (.inl rfl))).symm
    | zzd32 => exact (h32 (.inr (.inr rfl))).symm
    | len64 m => exact (h64 (.inl ⟨m, rfl⟩)).symm
    | zze64 => exact (h64 (.inr (.inl rfl))).symm
    | zzd64 => exact (h64 (.inr (.inr rfl))).symm
    | enc32 m =>
      obtain ⟨hv, hw⟩ := he32 ⟨m, rfl⟩
      exact ⟨hv.symm, (sameWindow_setReq s hw).1⟩
    | enc64 m =>
      obtain ⟨hv, hw⟩ := he64 ⟨m, rfl⟩
      exact ⟨hv.symm, (sameWindow_setReq s hw).1⟩
    | dec32 m => exact sameWindow_setReq s (hwin (.inl ⟨m, .inl rfl⟩))
    | dec64 m => exact sameWindow_setReq s (hwin (.inl ⟨m, .inr rfl⟩))
    | canrd32 => exact sameWindow_setReq s (hwin (.inr (.inl rfl)))
    | canrd64 => exact sameWindow_setReq s (hwin (.inr (.inr rfl)))
  obtain ⟨r, log, a, vs, hs, ht⟩ := exec_sameAnswer i hin
  exact ⟨_, hs, ht.trans (congrArg Host.Outcome.next (answer_setReq s q r log a vs))⟩

end Sys2Proof.Machine

/-! # The memory the host sees and the byte port (O11, O50, O52)

First the host's own accesses of the buffer; then an operation issued twice, from what its answer depends on; then how much
of the byte port an operation uses, one lemma for each shared operation. -/

namespace Sys2Proof.Machine

/-! ### The host's own accesses -/

/-- R31, R51 (c): a step by the host's write of a byte the buffer has. -/
theorem step_of_host_write {s : State} {a : Nat} {v : Byte} {rest : List HostMove}
    (hs : s.host = .write a v :: rest) (ha : a < 2 ^ s.aw) :
    step s = .next { s.clearPorts with host := rest, buf := s.buf.write a v } := by
  rw [step_of_host_cons s _ rest hs]
  exact if_pos ha

/-- R31, R51 (d): a step by the host's read of a byte the buffer has. -/
theorem step_of_host_read {s : State} {a : Nat} {rest : List HostMove}
    (hs : s.host = .read a :: rest) (ha : a < 2 ^ s.aw) :
    step s = .next { s.clearPorts with host := rest, rdata := some (s.byteAt a) } := by
  rw [step_of_host_cons s _ rest hs]
  exact if_pos ha

/-- Settles O11: the buffer between the two steps is that of one write, read by `byteAt_memWrite`. -/
theorem hostReadsWhatItWrote : Obligations.HostReadsWhatItWrote := by
  intro s a b v rest hs ha hb
  exact ⟨_, _, step_of_host_write hs ha, step_of_host_read rfl hb, rfl, congrArg some (byteAt_memWrite s a b v)⟩

/-! ### An operation issued twice -/

/-- Storing the same bytes at the same place once more leaves the bytes as they are. -/
theorem byteAt_answer_answer (s : State) (r r' : Response) (log log' : List Access) (a : Nat) (vs : List Byte) (b : Nat) :
    ((s.answer r log a vs).answer r' log' a vs).byteAt b = (s.answer r log a vs).byteAt b := by
  change ((s.answer r log a vs).memWriteAll a vs).byteAt b = (s.memWriteAll a vs).byteAt b
  rw [byteAt_memWriteAll, show (s.answer r log a vs).byteAt b = (s.memWriteAll a vs).byteAt b from rfl,
    byteAt_memWriteAll]
  split_ifs
  · cases vs[b - a]? <;> rfl
  · rfl

/-- An operation changes nothing that it reads: ENC reads no byte, and every other operation stores none. -/
theorem sameInputs_of_exec {i : Instr} {s t : State} (ht : exec i s = .next t) : SameInputs i s t := by
  have hframe : s.aw = t.aw ∧ s.req = t.req := by
    obtain ⟨b, r, log, hn⟩ := exec_answers i s
    cases ht.symm.trans hn
    exact ⟨rfl, rfl⟩
  obtain ⟨haw, hreq⟩ := hframe
  have hwin : SameWindow s t := ⟨haw, congrArg Request.off hreq, congrArg Request.avail hreq⟩
  have hread (hi : ∀ m, i ≠ .enc32 m ∧ i ≠ .enc64 m) : SameInputs i s t := by
    obtain ⟨-, hbytes, -⟩ := nonStoringFrame i s t hi ht
    refine sameInputs_of_sameReq i haw hreq fun j _ => ?_
    simp only [State.wireByte, State.addr, hreq, hbytes]
  cases i with
  | enc32 => exact ⟨congrArg (fun q : Request => trunc32 q.val) hreq, hwin⟩
  | enc64 => exact ⟨congrArg Request.val hreq, hwin⟩
  | len32 | len64 | dec32 | dec64 | canrd32 | canrd64 | zze32 | zze64 | zzd32 | zzd64 =>
    exact hread fun _ => ⟨nofun, nofun⟩

/-- Settles O52: the second answer is the first one again, since the operation finds what it reads unchanged. -/
theorem operationsAreIdempotent : Obligations.OperationsAreIdempotent := by
  intro i s t ht
  obtain ⟨r, log, a, vs, hs, hu⟩ := exec_sameAnswer i (sameInputs_of_exec ht)
  obtain rfl : t = _ := Host.Outcome.next.inj (ht.symm.trans hs)
  exact ⟨_, hu, rfl, byteAt_answer_answer s r r log log a vs⟩

/-! ### How much of the byte port an operation uses -/

/-- How many accesses an operation may make: `N(W)` for ENC and DEC (R45, R46, R225), `N(W) - 1` for CANRD, whose fast path
reads nothing (R47, R161), none for the others (R48). -/
def maxAccesses : Instr → Nat
  | .enc32 _ | .dec32 _ => Config.maxLen32
  | .enc64 _ | .dec64 _ => Config.maxLen64
  | .canrd32 => Config.maxLen32 - 1
  | .canrd64 => Config.maxLen64 - 1
  | .len32 _ | .len64 _ | .zze32 | .zze64 | .zzd32 | .zzd64 => 0

/-- ENC is the operation that stores (R45). -/
def stores : Instr → Bool
  | .enc32 _ | .enc64 _ => true
  | _ => false

/-- The access is a store. -/
def Access.isWrite : Access → Bool
  | .read _ => false
  | .write _ _ => true

theorem eq_write_of_isWrite {x : Access} (h : x.isWrite = true) : ∃ a v, x = .write a v := by
  cases x with
  | read a => cases h
  | write a v => exact ⟨a, v, rfl⟩

/-- What the port carries for an operation that answers from state `s`: accesses inside the declared bytes (R42), all stores or
all reads as `w` says, and at most `n` of them. -/
structure PortUse (s : State) (w : Bool) (n : Nat) (log : List Access) : Prop where
  inside : log.all s.allows = true
  kind : ∀ x ∈ log, x.isWrite = w
  length_le : log.length ≤ n

/-- The outcome is a next state that adds such accesses to the byte port's record. -/
def Uses (s : State) (w : Bool) (n : Nat) (o : Result) : Prop :=
  ∃ t log, o = .next t ∧ t.bus = s.bus ++ log ∧ PortUse s w n log

/-- A bare response makes no access. -/
theorem uses_response (s : State) (r : Response) (w : Bool) (n : Nat) : Uses s w n (.next { s with resp := some r }) :=
  ⟨_, [], rfl, (List.append_nil _).symm, rfl, nofun, Nat.zero_le n⟩

/-- R46, R47: the reads of the first `k` bytes of the value, where `k` bytes are declared. -/
theorem portUse_readsFrom {s : State} (hr : s.inRange = true) {k n : Nat} (hk : k ≤ s.req.avail) (hn : k ≤ n) :
    PortUse s false n (s.readsFrom 0 k) where
  inside := readsFrom_allowed hr hk
  kind x hx := by
    obtain ⟨j, -, rfl⟩ := List.mem_map.mp hx
    rfl
  length_le := by simpa [State.readsFrom] using hn

/-- R45: the stores of a sequence of bytes from `REQ.OFF` upward, where that many bytes are declared. -/
theorem portUse_writes {s : State} (hr : s.inRange = true) {vs : List Byte} {n : Nat} (hk : vs.length ≤ s.req.avail)
    (hn : vs.length ≤ n) : PortUse s true n ((vs.zipIdx s.req.off).map fun p => Access.write p.2 p.1) where
  inside := writes_allowed hr hk
  kind x hx := by
    obtain ⟨p, -, rfl⟩ := List.mem_map.mp hx
    rfl
  length_le := by simpa using hn

/-- ENC: one store for each byte of the encoding, after the range and the capacity check (R45, R116). -/
theorem encodeOp_uses {W N : Nat} (h1 : 1 ≤ N) (m : Mode) (v : BitVec W) (s : State) :
    Uses s true N (encodeOp N m v s) := by
  have hlen := encBytes_length N (payload m v)
  rw [encodeOp_eq]
  split_ifs with hr hc
  · exact uses_response s _ _ _
  · exact ⟨_, _, rfl, rfl, portUse_writes hr (hlen.trans_le (not_lt.mp hc)) (hlen.trans_le (varLen_le h1 _))⟩
  · exact uses_response s _ _ _

/-- DEC: the bytes up to the terminal one, or every declared byte when the terminal one is not among them (R46, R137). -/
theorem decodeOp_uses {W N : Nat} (h1 : 1 ≤ N) (m : Mode) (ext : BitVec W → Word64) (s : State) :
    Uses s false N (decodeOp N m ext s) := by
  have hlt : terminalIndex N s.wireByte < N := terminalIndex_lt h1 s.wireByte
  rw [decodeOp_eq]
  split_ifs with hr hk
  · exact ⟨_, _, rfl, rfl, portUse_readsFrom hr hk hlt⟩
  · exact ⟨_, _, rfl, rfl, portUse_readsFrom hr le_rfl ((not_lt.mp hk).trans hlt.le)⟩
  · exact uses_response s _ _ _

/-- CANRD: it walks only when fewer than `N` bytes are declared, and then over no more than these (R47, R161). -/
theorem canReadOp_uses (N : Nat) (s : State) : Uses s false (N - 1) (canReadOp N s) := by
  rw [canReadOp_eq]
  split_ifs with hr hN
  · exact uses_response s _ _ _
  · have havail : s.req.avail ≤ N - 1 := Nat.le_sub_one_of_lt (not_le.mp hN)
    exact ⟨_, _, rfl, rfl, portUse_readsFrom hr (min_le_right _ _) ((min_le_right _ _).trans havail)⟩
  · exact uses_response s _ _ _

theorem exec_uses (i : Instr) (s : State) : Uses s (stores i) (maxAccesses i) (exec i s) := by
  have h32 : 1 ≤ Config.maxLen32 := by decide
  have h64 : 1 ≤ Config.maxLen64 := by decide
  cases i with
  | len32 | len64 | zze32 | zze64 | zzd32 | zzd64 => exact uses_response s _ _ _
  | enc32 m => exact encodeOp_uses h32 m s.val32 s
  | enc64 m => exact encodeOp_uses h64 m s.val64 s
  | dec32 m => exact decodeOp_uses h32 m sext32 s
  | dec64 m => exact decodeOp_uses h64 m full64 s
  | canrd32 | canrd64 => exact canReadOp_uses _ s

/-- R42: an allowed access lies in the declared bytes and in the buffer. -/
theorem State.allows_iff {s : State} {x : Access} :
    s.allows x = true ↔ s.req.off ≤ x.addr ∧ x.addr < s.req.off + s.req.avail ∧ x.addr < 2 ^ s.aw := by
  simp only [State.allows, Bool.and_eq_true, decide_eq_true_eq, and_assoc]

/-- Settles O50: every clause is one of `exec_uses`, read at the operation it names. -/
theorem accessesStayInBounds : Obligations.AccessesStayInBounds := by
  intro i s t ht
  obtain ⟨t', log, ht', hbus, hinside, hkind, hlen⟩ := exec_uses i s
  obtain rfl : t' = t := Host.Outcome.next.inj (ht'.symm.trans ht)
  refine ⟨log, hbus, fun x hx => State.allows_iff.mp (List.all_eq_true.mp hinside x hx), ?_, ?_, ?_, ?_, ?_, ?_⟩
  · rintro m (rfl | rfl) x hx
    · exact eq_write_of_isWrite (hkind x hx)
    · exact eq_write_of_isWrite (hkind x hx)
  · rintro m (rfl | rfl)
    · exact hlen
    · exact hlen
  · rintro m (rfl | rfl)
    · exact hlen
    · exact hlen
  · rintro rfl
    exact hlen
  · rintro rfl
    exact hlen
  · rintro (⟨m, rfl | rfl⟩ | rfl | rfl | rfl | rfl)
    all_goals exact List.length_eq_zero_iff.mp (Nat.le_zero.mp hlen)

end Sys2Proof.Machine

/-! # Encodings, the command byte and the round trips (O1 to O3, O5, O22 to O24, O41 to O44)

First the command byte and the assembled request; then the zig-zag transform, bit by bit; then the bytes of an encoding; then a
reader over these bytes, which finds the payload again; last DEC over an encoding and after an ENC. The two widths share each
argument: `WidthFits` holds what they have in common. -/

namespace Sys2Proof.Machine

/-! ### The command byte -/

theorem decode_encode (i : Instr) : decode (encode i) = .ok i := by
  cases i with
  | len32 m | len64 m | enc32 m | enc64 m | dec32 m | dec64 m => cases m <;> rfl
  | canrd32 | canrd64 | zze32 | zze64 | zzd32 | zzd64 => rfl

/-- R70: a command byte whose field `Z` is 0 is put together from its other three fields again. -/
theorem cmdByte_fields (c : Byte) (hz : cmdZ c = 0) :
    cmdByte (BitVec.ofNat 3 (cmdFN c)) (modeBit (cmdMode c)) (cmdWS c) = c := by
  revert c; decide

/-- R71: an operation without a mode is decoded only where `P` is 0. -/
theorem modeless_eq_ok {c : Byte} {i j : Instr} (h : modeless c j = .ok i) : cmdMode c = .zigzag ∧ j = i := by
  unfold modeless at h
  split_ifs at h with hp
  exact ⟨if_neg hp, Except.ok.inj h⟩

/-- R73: along the decoder's own cases, the fields it has tested are the encoder's. -/
theorem eq_encode_of_decode {c : Byte} {i : Instr} (h : decode c = .ok i) : c = encode i := by
  unfold decode at h
  split_ifs at h with hz
  rw [← cmdByte_fields c (not_not.mp hz)]
  split at h
  case h_1 hfn hws | h_2 hfn hws | h_3 hfn hws | h_4 hfn hws | h_5 hfn hws | h_6 hfn hws =>
    cases h
    rw [hfn, hws]
    rfl
  case h_7 hfn hws | h_8 hfn hws | h_9 hfn hws | h_10 hfn hws | h_11 hfn hws | h_12 hfn hws =>
    obtain ⟨hp, rfl⟩ := modeless_eq_ok h
    rw [hfn, hws, hp]
    rfl
  case h_13 => cases h

/-- R73: the decoder accepts exactly the bytes that R73 lists. -/
theorem decode_isOk (c : Byte) : (decode c).isOk = legalCmd c := by
  revert c; decide

/-- Settles O1: each byte of table T14 is the encoder's, so `decode_encode` decodes it. -/
theorem commandBytesDecode : Obligations.CommandBytesDecode :=
  ⟨decode_encode (.len32 .zigzag), decode_encode (.len32 .raw), decode_encode (.len64 .zigzag),
    decode_encode (.len64 .raw), decode_encode (.enc32 .zigzag), decode_encode (.enc32 .raw),
    decode_encode (.enc64 .zigzag), decode_encode (.enc64 .raw), decode_encode (.dec32 .zigzag),
    decode_encode (.dec32 .raw), decode_encode (.dec64 .zigzag), decode_encode (.dec64 .raw),
    decode_encode .canrd32, decode_encode .canrd64, decode_encode .zze32, decode_encode .zze64,
    decode_encode .zzd32, decode_encode .zzd64⟩

/-- Settles O2: the two directions of the round trip. -/
theorem commandByteRoundTrip : Obligations.CommandByteRoundTrip :=
  ⟨decode_encode, fun _ _ h => eq_encode_of_decode h⟩

/-- Settles O3: the three classes of reserved bytes by their 256 cases, the legal ones by `decode_isOk`. -/
theorem reservedBytesClassified : Obligations.ReservedBytesClassified := by
  refine fun c => ⟨?_, ?_, ?_, ?_⟩
  · revert c; decide
  · revert c; decide
  · revert c; decide
  · rw [← decode_isOk c]
    cases decode c with
    | ok i => exact ⟨fun _ => rfl, fun _ => ⟨i, rfl⟩⟩
    | error e => exact ⟨nofun, nofun⟩

/-- Settles O5: each clause fixes the operation's form, whose fields `assemble` gives; a 32-bit operand is sign-extended, so
its low half is the operand (`sext32_low`). -/
theorem assembledRequestFields : Obligations.AssembledRequestFields := by
  intro i v a o
  have hcmd : (assemble i v a o).cmd = encode i := by cases i <;> rfl
  refine ⟨hcmd ▸ decode_encode i, rfl, ?_, ?_, ?_, ?_, ?_, ?_⟩
  · rintro m rfl
    exact ⟨sext32_low _, rfl, rfl⟩
  · rintro m rfl
    exact ⟨rfl, rfl, rfl⟩
  · rintro (⟨m, rfl⟩ | rfl | rfl)
    all_goals exact ⟨sext32_low _, rfl, rfl⟩
  · rintro (⟨m, rfl⟩ | rfl | rfl)
    all_goals exact ⟨rfl, rfl, rfl⟩
  · rintro (⟨m, rfl | rfl⟩ | rfl | rfl)
    all_goals exact ⟨rfl, rfl, rfl⟩
  · rintro (⟨m, rfl | rfl⟩ | rfl | rfl)
    all_goals exact eq_signExtend_low ⟨_, rfl⟩

/-! ### The zig-zag transform -/

/-- R90 bit by bit: every bit moves up by one, and the sign is added to all. -/
theorem zigZagEnc_getLsbD {W : Nat} (v : BitVec W) {p : Nat} (hp : p < W) :
    (zigZagEnc v).getLsbD p = ((decide (1 ≤ p) && v.getLsbD (p - 1)) ^^ v.getLsbD (W - 1)) := by
  have hsign : (v.sshiftRight (W - 1)).getLsbD p = v.getLsbD (W - 1) := by
    rw [BitVec.getLsbD_sshiftRight, BitVec.msb_eq_getLsbD_last]
    split_ifs with h
    · simp only [decide_eq_false hp.not_ge, Bool.not_false, Bool.true_and, show W - 1 + p = W - 1 by omega]
    · simp [hp]
  rw [zigZagEnc, BitVec.getLsbD_xor, hsign, BitVec.getLsbD_shiftLeft]
  rcases Nat.eq_zero_or_pos p with rfl | h1
  · simp
  · simp [hp, h1, h1.ne', Nat.succ_le_iff]

/-- R91 bit by bit: every bit moves down by one, and bit 0 is added to all. -/
theorem zigZagDec_getLsbD {W : Nat} (u : BitVec W) {p : Nat} (hp : p < W) :
    (zigZagDec u).getLsbD p = (u.getLsbD (p + 1) ^^ u.getLsbD 0) := by
  have hmask : (-(u &&& 1#W)).getLsbD p = u.getLsbD 0 := by
    rw [BitVec.and_one_eq_setWidth_ofBool_getLsbD]
    cases u.getLsbD 0
    · simp
    · rw [show (BitVec.ofBool true).setWidth W = 1#W from BitVec.eq_of_toNat_eq (by simp),
        BitVec.neg_one_eq_allOnes, BitVec.getLsbD_allOnes, decide_eq_true hp]
  rw [zigZagDec, BitVec.getLsbD_xor, hmask, BitVec.getLsbD_ushiftRight, Nat.add_comm]

/-- R93, first half: what was added to all bits is added once more. -/
theorem zigZagDec_zigZagEnc {W : Nat} (v : BitVec W) : zigZagDec (zigZagEnc v) = v := by
  refine BitVec.eq_of_getLsbD_eq fun p hp => ?_
  rw [zigZagDec_getLsbD _ hp, zigZagEnc_getLsbD v (Nat.zero_lt_of_lt hp)]
  by_cases hl : p + 1 < W
  · simp [zigZagEnc_getLsbD v hl]
  · simp [BitVec.getLsbD_of_ge (zigZagEnc v) _ (not_lt.mp hl), show W - 1 = p by omega]

/-- R93, second half. -/
theorem zigZagEnc_zigZagDec {W : Nat} (u : BitVec W) : zigZagEnc (zigZagDec u) = u := by
  refine BitVec.eq_of_getLsbD_eq fun p hp => ?_
  have hlast : (zigZagDec u).getLsbD (W - 1) = u.getLsbD 0 := by
    simp [zigZagDec_getLsbD u (show W - 1 < W by omega), show W - 1 + 1 = W by omega]
  rw [zigZagEnc_getLsbD _ hp, hlast]
  cases p with
  | zero => simp
  | succ p => simp [zigZagDec_getLsbD u (Nat.lt_of_succ_lt hp)]

theorem sext32_getLsbD (v : Word32) {p : Nat} (hp : p < 64) : (sext32 v).getLsbD p = v.getLsbD (min p 31) := by
  rw [sext32, BitVec.getLsbD_signExtend, BitVec.msb_eq_getLsbD_last, decide_eq_true hp, Bool.true_and]
  split_ifs with h
  · rw [show min p 31 = p by omega]
  · rw [show min p 31 = 31 by omega]

/-- R95: the two widths' transforms agree on every 32-bit pattern. -/
theorem zigZagEnc_sext32 (v : Word32) : zigZagEnc (sext32 v) = zext32 (zigZagEnc v) := by
  refine BitVec.eq_of_getLsbD_eq fun p hp => ?_
  rw [zigZagEnc_getLsbD _ hp, sext32_getLsbD v (show p - 1 < 64 by omega),
    sext32_getLsbD v (show 64 - 1 < 64 by decide), zext32, BitVec.getLsbD_setWidth]
  by_cases h : p < 32
  · rw [zigZagEnc_getLsbD v h, show min (p - 1) 31 = p - 1 by omega]
    simp [hp]
  · rw [BitVec.getLsbD_of_ge (zigZagEnc v) _ (not_lt.mp h), show min (p - 1) 31 = 31 by omega]
    simp [show 1 ≤ p by omega]

/-- R93, R96, R97: in either mode the payload gives the value back, and the value the payload. -/
theorem unpayload_payload {W : Nat} (m : Mode) (v : BitVec W) : unpayload m (payload m v) = v := by
  cases m with
  | zigzag => exact zigZagDec_zigZagEnc v
  | raw => rfl

theorem payload_unpayload {W : Nat} (m : Mode) (u : BitVec W) : payload m (unpayload m u) = u := by
  cases m with
  | zigzag => exact zigZagEnc_zigZagDec u
  | raw => rfl

/-! ### The bytes of an encoding -/

/-- What ties a width to its maximum length (R7): `N - 1` groups of 7 bits and a last byte of 8 hold `W` bits, and they
lie within the 64 bits on which a reader shifts (R132). -/
structure WidthFits (W N : Nat) : Prop where
  pos : 1 ≤ N
  holds : W ≤ 7 * (N - 1) + 8
  port : 7 * (N - 1) + 8 ≤ 64

theorem widthFits32 : WidthFits 32 5 := by constructor <;> decide
theorem widthFits64 : WidthFits 64 9 := by constructor <;> decide

/-- A byte that an encoding lists is R111's. -/
theorem eq_encByte_of_getElem? {W N i : Nat} {u : BitVec W} {b : Byte} (hb : (encBytes N u)[i]? = some b) :
    b = encByte u (varLen N u) i := by
  have hi : i < varLen N u := encBytes_length N u ▸ (List.getElem?_eq_some_iff.mp hb).1
  exact Option.some.inj (hb.symm.trans (encBytes_getElem? N u i hi))

/-- The payload fits the encoding's groups when the last byte counts for 8 bits (R110). -/
theorem toNat_lt_of_varLen {W N : Nat} (hW : WidthFits W N) (u : BitVec W) :
    u.toNat < 2 ^ (7 * (varLen N u - 1) + 8) := by
  obtain ⟨hN, hle, -⟩ := hW
  have hpos := varLen_pos N u
  rcases (varLen_le hN u).lt_or_eq with hlt | heq
  · exact (lt_of_varLen_lt u hlt).trans_le (Nat.pow_le_pow_right (by decide) (by omega))
  · exact u.isLt.trans_le (Nat.pow_le_pow_right (by decide) (by omega))

/-- The last byte is all that the groups before it leave of the payload (R111). -/
theorem encByte_last_toNat {W N : Nat} (hW : WidthFits W N) (u : BitVec W) :
    (encByte u (varLen N u) (varLen N u - 1)).toNat = u.toNat / 2 ^ (7 * (varLen N u - 1)) := by
  rw [encByte_toNat_of_not_lt u (by omega)]
  refine Nat.mod_eq_of_lt (Nat.div_lt_of_lt_mul ?_)
  exact (toNat_lt_of_varLen hW u).trans_eq (pow_add 2 _ 8)

/-- R113 (b): every byte but the last continues. -/
theorem contFlag_encByte {W L i : Nat} (u : BitVec W) (h : i + 1 < L) : contFlag (encByte u L i) = true := by
  rw [contFlag_eq, encByte_toNat_of_lt u h, decide_eq_true_eq]
  exact Nat.le_add_right _ _

/-- R113 (c): the last byte of an encoding below full length does not continue. -/
theorem contFlag_encByte_last {W N : Nat} (hW : WidthFits W N) (u : BitVec W) (h : varLen N u < N) :
    contFlag (encByte u (varLen N u) (varLen N u - 1)) = false := by
  have hpos := varLen_pos N u
  have hlt : u.toNat < 2 ^ (7 * (varLen N u - 1)) * 128 :=
    calc u.toNat < 2 ^ (7 * varLen N u) := lt_of_varLen_lt u h
      _ = 2 ^ (7 * (varLen N u - 1) + 7) := by congr 1; omega
      _ = _ := pow_add _ _ _
  rw [contFlag_eq, encByte_last_toNat hW, decide_eq_false_iff_not, not_le]
  exact Nat.div_lt_of_lt_mul hlt

/-- R113 (d): with one group fewer the payload would not fit, so the last byte is not 0. -/
theorem encByte_last_ne_zero {W N : Nat} (hW : WidthFits W N) (u : BitVec W) (h : 1 < varLen N u) :
    encByte u (varLen N u) (varLen N u - 1) ≠ 0 := by
  have hle : 2 ^ (7 * (varLen N u - 1)) ≤ u.toNat := le_of_lt_varLen (N := N) u _ (by omega) (by omega)
  have hpos : 0 < (encByte u (varLen N u) (varLen N u - 1)).toNat := by
    rw [encByte_last_toNat hW]
    exact Nat.div_pos hle (Nat.two_pow_pos _)
  intro h0
  rw [h0] at hpos
  exact absurd hpos (by decide)

/-- R113 (a) to (d), as far as the two widths share them. -/
theorem encBytes_shape {W N : Nat} (hW : WidthFits W N) (u : BitVec W) :
    (encBytes N u).length = varLen N u ∧
    (∀ (i : Nat) (b : Byte), i + 1 < varLen N u → (encBytes N u)[i]? = some b → b.getLsbD 7 = true) ∧
    (∀ b : Byte, (encBytes N u)[varLen N u - 1]? = some b →
      (varLen N u < N → b.getLsbD 7 = false) ∧ (1 < varLen N u → b ≠ 0)) := by
  refine ⟨encBytes_length N u, fun i b hi hb => ?_, fun b hb => ?_⟩
  · obtain rfl := eq_encByte_of_getElem? hb
    exact contFlag_encByte u hi
  · obtain rfl := eq_encByte_of_getElem? hb
    exact ⟨contFlag_encByte_last hW u, encByte_last_ne_zero hW u⟩

/-- Settles O22: `encBytes_shape` for each width, and a fifth byte holds what is left of 32 bits after 28. -/
theorem encodingShape : Obligations.EncodingShape := by
  refine ⟨fun u => ?_, fun u => encBytes_shape widthFits64 u⟩
  obtain ⟨hlen, hflag, hlast⟩ := encBytes_shape widthFits32 u
  refine ⟨hlen, hflag, fun b hb => ⟨(hlast b hb).1, (hlast b hb).2, fun h5 => ?_⟩⟩
  obtain rfl := eq_encByte_of_getElem? hb
  rw [encByte_last_toNat widthFits32, h5]
  omega

/-! ### The payload as a sum -/

theorem zipIdx_map_range {α : Type} (f : Nat → α) (n : Nat) :
    ((List.range n).map f).zipIdx = (List.range n).map fun i => (f i, i) := by
  refine List.ext_getElem? fun i => ?_
  by_cases h : i < n <;> simp [h]

/-- The low 7 bits of every byte of an encoding are the payload's at its offset. -/
theorem encByte_toNat_mod {W L i : Nat} (u : BitVec W) :
    (encByte u L i).toNat % 128 = u.toNat / 2 ^ (7 * i) % 128 := by
  by_cases h : i + 1 < L
  · rw [encByte_toNat_of_lt u h]
    omega
  · rw [encByte_toNat_of_not_lt u h]
    omega

/-- R64: `part i b` is the payload part of a byte `b` at index `i`: its low 7 bits, and at index `N - 1` the whole byte as
long as it fits the bits that the width leaves it. -/
structure IsPayloadPart (W N : Nat) (part : Nat → Byte → Nat) : Prop where
  group : ∀ i b, i + 1 < N → part i b = b.toNat % 128
  last : ∀ b : Byte, 2 ^ (7 * (N - 1)) * b.toNat < 2 ^ W → part (N - 1) b = b.toNat

/-- The groups before index `n` sum up to the payload's low `7 * n` bits. -/
theorem sum_groups {W N L n : Nat} (u : BitVec W) {part : Nat → Byte → Nat} (hp : IsPayloadPart W N part) (hn : n < N) :
    ((List.range n).map fun i => part i (encByte u L i) * 2 ^ (7 * i)).sum = u.toNat % 2 ^ (7 * n) := by
  induction n with
  | zero => simp [Nat.mod_one]
  | succ n ih =>
    rw [List.sum_range_succ, ih (Nat.lt_of_succ_lt hn), hp.group n _ hn, encByte_toNat_mod, Nat.mul_succ, pow_add,
      Nat.mod_mul, show (128 : Nat) = 2 ^ 7 from rfl, Nat.mul_comm (2 ^ (7 * n))]

/-- The last byte's payload part is the rest of the payload, at full length and below it. -/
theorem part_encByte_last {W N : Nat} (hW : WidthFits W N) (u : BitVec W) {part : Nat → Byte → Nat}
    (hp : IsPayloadPart W N part) :
    part (varLen N u - 1) (encByte u (varLen N u) (varLen N u - 1)) = u.toNat / 2 ^ (7 * (varLen N u - 1)) := by
  rw [← encByte_last_toNat hW]
  have hpos := varLen_pos N u
  rcases (varLen_le hW.pos u).lt_or_eq with hlt | heq
  · have hflag := contFlag_encByte_last hW u hlt
    rw [contFlag_eq, decide_eq_false_iff_not, not_le] at hflag
    rw [hp.group _ _ (by omega), Nat.mod_eq_of_lt hflag]
  · have hfits : 2 ^ (7 * (N - 1)) * (encByte u (varLen N u) (varLen N u - 1)).toNat < 2 ^ W := by
      rw [encByte_last_toNat hW, heq]
      exact (Nat.mul_div_le _ _).trans_lt u.isLt
    rw [heq] at hfits ⊢
    exact hp.last _ hfits

/-- R113 (e) for both widths: the groups before the last byte give the payload's remainder, the last byte the quotient. -/
theorem sum_encBytes {W N : Nat} (hW : WidthFits W N) (u : BitVec W) {part : Nat → Byte → Nat}
    (hp : IsPayloadPart W N part) :
    u.toNat = ((encBytes N u).zipIdx.map fun p => part p.2 p.1 * 2 ^ (7 * p.2)).sum := by
  have hlt : varLen N u - 1 < N := (Nat.sub_one_lt_of_lt (varLen_pos N u)).trans_le (varLen_le hW.pos u)
  have hrange : List.range (varLen N u) = List.range (varLen N u - 1 + 1) := by
    rw [Nat.sub_add_cancel (varLen_pos N u)]
  rw [encBytes, zipIdx_map_range, List.map_map, hrange, List.sum_range_succ]
  simp only [Function.comp_def]
  rw [sum_groups u hp hlt, part_encByte_last hW u hp, Nat.mod_add_div']

theorem isPayloadPart32 : IsPayloadPart 32 5 fun i b => if i = 4 then b.toNat % 16 else b.toNat % 128 where
  group _ _ hi := if_neg (by omega)
  last _ hb := (if_pos rfl).trans (by omega)

theorem isPayloadPart64 : IsPayloadPart 64 9 fun i b => if i = 8 then b.toNat else b.toNat % 128 where
  group _ _ hi := if_neg (by omega)
  last _ _ := if_pos rfl

/-- Settles O23: `sum_encBytes` with the payload parts of each width. -/
theorem encodingSumsToPayload : Obligations.EncodingSumsToPayload :=
  ⟨fun u => sum_encBytes widthFits32 u isPayloadPart32, fun u => sum_encBytes widthFits64 u isPayloadPart64⟩

/-! ### A reader over the bytes of an encoding -/

/-- The bytes `b` that a reader sees start with the bytes `bs`. -/
def StartsWith (b : Nat → Byte) (bs : List Byte) : Prop := ∀ i x, bs[i]? = some x → b i = x

theorem StartsWith.apply {W N i : Nat} {u : BitVec W} {b : Nat → Byte} (h : StartsWith b (encBytes N u))
    (hi : i < varLen N u) : b i = encByte u (varLen N u) i :=
  h i _ (encBytes_getElem? N u i hi)

/-- R130: a reader stops at the encoding's last byte. -/
theorem terminalIndex_of_startsWith {W N : Nat} (hW : WidthFits W N) {u : BitVec W} {b : Nat → Byte}
    (h : StartsWith b (encBytes N u)) : terminalIndex N b = varLen N u - 1 := by
  have hpos := varLen_pos N u
  have hle := varLen_le hW.pos u
  refine terminalFrom_unique b (N - 1) 0 _ (Nat.zero_le _) (by omega) (fun hlt => ?_) (fun j _ hj => ?_)
  · rw [h.apply (by omega)]
    exact contFlag_encByte_last hW u (by omega)
  · rw [h.apply (by omega)]
    exact contFlag_encByte u (by omega)

/-- R111 bit by bit: the low 7 bits of every byte, and all bits of the last. -/
theorem encByte_getLsbD {W L i j : Nat} (u : BitVec W) (hj : j < 7) :
    (encByte u L i).getLsbD j = u.getLsbD (7 * i + j) := by
  have hflag : (0x80#8).getLsbD j = false := by revert j; decide
  rw [encByte]
  split_ifs
  · simp only [BitVec.getLsbD_or, hflag, Bool.false_or, low7, BitVec.getLsbD_setWidth, BitVec.getLsbD_ushiftRight]
    simp [hj, show j < 8 by omega]
  · simp only [BitVec.getLsbD_setWidth, BitVec.getLsbD_ushiftRight]
    simp [show j < 8 by omega]

theorem encByte_last_getLsbD {W N : Nat} (hW : WidthFits W N) (u : BitVec W) (j : Nat) :
    (encByte u (varLen N u) (varLen N u - 1)).getLsbD j = u.getLsbD (7 * (varLen N u - 1) + j) := by
  rw [← BitVec.testBit_toNat, encByte_last_toNat hW, Nat.testBit_div_two_pow, BitVec.testBit_toNat, Nat.add_comm]

/-- R131: a byte of an encoding but the last contributes its 7 bits of the payload. -/
theorem contribution_getLsbD {W N i : Nat} (hW : WidthFits W N) {u : BitVec W} {b : Nat → Byte}
    (h : StartsWith b (encBytes N u)) (hi : i + 1 < varLen N u) (p : Nat) :
    (contribution W N b i).getLsbD p = (decide (7 * i ≤ p) && decide (p < 7 * i + 7) && u.getLsbD p) := by
  have hle := varLen_le hW.pos u
  have hport := hW.port
  rw [contribution, if_neg (by omega), h.apply (by omega), group_getLsbD _ _ (by omega)]
  rcases Nat.lt_or_ge p (7 * i) with h1 | h1
  · simp [h1.not_ge]
  rcases Nat.lt_or_ge p (7 * i + 7) with h2 | h2
  · rw [encByte_getLsbD u (by omega), Nat.add_sub_cancel' h1]
    rcases Nat.lt_or_ge p W with h3 | h3
    · simp [h3]
    · simp [BitVec.getLsbD_of_ge u p h3]
  · simp [h2.not_gt]

/-- A byte with a clear continuation flag contributes the same at the last index as at any other: its bit 7 is clear. -/
theorem group_eq_lastGroup (W i : Nat) {b : Byte} (h : contFlag b = false) : group W i b = lastGroup W i b := by
  have hcut : (b.setWidth 7).setWidth 64 = b.setWidth 64 := by revert b; decide
  rw [group, lastGroup, hcut]

/-- R131, R133: the last byte contributes the bits of the payload that are left, whether or not it stands at index
`N - 1`. -/
theorem contribution_last_getLsbD {W N : Nat} (hW : WidthFits W N) {u : BitVec W} {b : Nat → Byte}
    (h : StartsWith b (encBytes N u)) (p : Nat) :
    (contribution W N b (varLen N u - 1)).getLsbD p = (decide (7 * (varLen N u - 1) ≤ p) && u.getLsbD p) := by
  have hpos := varLen_pos N u
  have hle := varLen_le hW.pos u
  have hport := hW.port
  have hlast : contribution W N b (varLen N u - 1) =
      lastGroup W (varLen N u - 1) (encByte u (varLen N u) (varLen N u - 1)) := by
    rw [contribution, h.apply (Nat.sub_one_lt_of_lt hpos)]
    split_ifs with hN
    · rfl
    · exact group_eq_lastGroup _ _ (contFlag_encByte_last hW u (by omega))
  rw [hlast, lastGroup_getLsbD _ _ (by omega), encByte_last_getLsbD hW]
  rcases Nat.lt_or_ge p W with hpW | hpW
  · by_cases h1 : 7 * (varLen N u - 1) ≤ p
    · simp [hpW, Nat.add_sub_cancel' h1]
    · simp [h1]
  · simp [BitVec.getLsbD_of_ge u p hpW, hpW.not_gt]

/-- Before the last byte the accumulator holds the payload's low `7 * n` bits. -/
theorem accumulate_getLsbD {W N n : Nat} (hW : WidthFits W N) {u : BitVec W} {b : Nat → Byte}
    (h : StartsWith b (encBytes N u)) (hn : n < varLen N u) (p : Nat) :
    (accumulate W N b n).getLsbD p = (decide (p < 7 * n) && u.getLsbD p) := by
  induction n with
  | zero => simp [accumulate]
  | succ n ih =>
    rw [accumulate, BitVec.getLsbD_or, ih (Nat.lt_of_succ_lt hn), contribution_getLsbD hW h hn,
      ← Bool.and_or_distrib_right]
    congr 1
    rw [Bool.eq_iff_iff]
    simp only [Bool.or_eq_true, Bool.and_eq_true, decide_eq_true_eq]
    omega

/-- R131 to R133: over all its bytes the accumulator is the payload. -/
theorem accumulate_of_startsWith {W N : Nat} (hW : WidthFits W N) {u : BitVec W} {b : Nat → Byte}
    (h : StartsWith b (encBytes N u)) : accumulate W N b (varLen N u) = u := by
  have hpos := varLen_pos N u
  have hacc : accumulate W N b (varLen N u) =
      accumulate W N b (varLen N u - 1) ||| contribution W N b (varLen N u - 1) := by
    conv_lhs => rw [← Nat.sub_add_cancel hpos, accumulate]
  refine BitVec.eq_of_getLsbD_eq fun p _ => ?_
  rw [hacc, BitVec.getLsbD_or, accumulate_getLsbD hW h (by omega), contribution_last_getLsbD hW h]
  rcases Nat.lt_or_ge p (7 * (varLen N u - 1)) with h1 | h1
  · simp [h1, h1.not_ge]
  · simp [h1, h1.not_gt]

/-- The same bytes cannot start with the encodings of two payloads: a reader gathers one. -/
theorem eq_of_startsWith {W N : Nat} (hW : WidthFits W N) {u v : BitVec W} {b : Nat → Byte}
    (hu : StartsWith b (encBytes N u)) (hv : StartsWith b (encBytes N v)) : u = v := by
  have hlen : varLen N u = varLen N v := by
    have hterm := (terminalIndex_of_startsWith hW hu).symm.trans (terminalIndex_of_startsWith hW hv)
    have hposu := varLen_pos N u
    have hposv := varLen_pos N v
    omega
  rw [← accumulate_of_startsWith hW hu, hlen, accumulate_of_startsWith hW hv]

/-- R113 (f): a reader of the longer encoding reads the shorter one as well. -/
theorem eq_of_encBytes_isPrefix {W N : Nat} (hW : WidthFits W N) {u v : BitVec W}
    (h : encBytes N u <+: encBytes N v) : u = v := by
  refine eq_of_startsWith hW (b := fun i => (encBytes N v)[i]?.getD 0) (fun i x hx => ?_) (fun i x hx => ?_)
  · obtain ⟨rest, hrest⟩ := h
    have hv : (encBytes N v)[i]? = some x := by
      rw [← hrest, List.getElem?_append_left (List.getElem?_eq_some_iff.mp hx).1, hx]
    simp only [hv, Option.getD_some]
  · simp only [hx, Option.getD_some]

/-- Settles O24: `eq_of_encBytes_isPrefix` for each width. -/
theorem encodingPrefixFree : Obligations.EncodingPrefixFree :=
  ⟨fun _ _ h => eq_of_encBytes_isPrefix widthFits32 h, fun _ _ h => eq_of_encBytes_isPrefix widthFits64 h⟩

/-! ### DEC over the bytes of an encoding -/

/-- DEC of declared bytes that start with a payload's encoding completes, with the payload's value and length. -/
theorem decodeOp_of_startsWith {W N : Nat} (hW : WidthFits W N) (m : Mode) (ext : BitVec W → Word64) {u : BitVec W}
    {s : State} (hr : s.req.off + s.req.avail ≤ 2 ^ s.aw) (ha : varLen N u ≤ s.req.avail)
    (h : StartsWith s.wireByte (encBytes N u)) :
    ∃ t, decodeOp N m ext s = .next t ∧
      t.resp = some ⟨.ok, ext (unpayload m u), BitVec.ofNat 4 (varLen N u)⟩ := by
  have hpos := varLen_pos N u
  rw [decodeOp_eq, if_pos (s.inRange_iff.mpr hr), terminalIndex_of_startsWith hW h, if_pos (by omega),
    Nat.sub_add_cancel hpos, accumulate_of_startsWith hW h]
  exact ⟨_, rfl, rfl⟩

/-- A length keeps its value in the 4 bits of `RESP.CNT` (R8). -/
theorem toNat_ofNat_varLen {W N : Nat} (hW : WidthFits W N) (u : BitVec W) :
    (BitVec.ofNat 4 (varLen N u)).toNat = varLen N u := by
  obtain ⟨hpos, -, hport⟩ := hW
  have hle := varLen_le hpos u
  rw [BitVec.toNat_ofNat]
  omega

/-- Settles O42: DEC returns the value of the payload, and the payload of that value is the payload. -/
theorem decodeEncodeRestoresBytes : Obligations.DecodeEncodeRestoresBytes := by
  refine ⟨fun m u s hr ha hb => ?_, fun m u s hr ha hb => ?_⟩
  · obtain ⟨t, ht, hresp⟩ := decodeOp_of_startsWith widthFits32 m sext32 hr ha hb
    refine ⟨t, _, _, ht, hresp, toNat_ofNat_varLen widthFits32 u, ?_⟩
    rw [sext32_low, payload_unpayload]
  · obtain ⟨t, ht, hresp⟩ := decodeOp_of_startsWith widthFits64 m full64 hr ha hb
    exact ⟨t, _, _, ht, hresp, toNat_ofNat_varLen widthFits64 u, congrArg (encBytes 9) (payload_unpayload m u)⟩

/-! ### DEC after an ENC -/

/-- `t` is a state in which an ENC has stored the encoding of payload `u` for the request of `s`, answering the count `L`:
the range and the capacity check have passed, and the bytes stand from `REQ.OFF` up. -/
structure Encoded {W : Nat} (N : Nat) (u : BitVec W) (s t : State) (L : BitVec 4) : Prop where
  aw : t.aw = s.aw
  req : t.req = s.req
  inRange : s.req.off + s.req.avail ≤ 2 ^ s.aw
  room : varLen N u ≤ s.req.avail
  count : L = BitVec.ofNat 4 (varLen N u)
  bytes : StartsWith (fun i => t.byteAt (s.req.off + i)) (encBytes N u)

/-- R114, R115: what an ENC leaves behind whose response is a success. -/
theorem encoded_of_encodeOp {W N : Nat} {m : Mode} {v : BitVec W} {s t : State} {L : BitVec 4}
    (ht : encodeOp N m v s = .next t) (hresp : t.resp = some ⟨.ok, 0, L⟩) : Encoded N (payload m v) s t L := by
  rw [encodeOp_eq] at ht
  split_ifs at ht with hr hc
  · cases ht; cases hresp
  · cases ht
    cases hresp
    refine ⟨rfl, rfl, s.inRange_iff.mp hr, not_lt.mp hc, rfl, fun i x hx => ?_⟩
    change (s.memWriteAll s.req.off (encBytes N (payload m v))).byteAt (s.req.off + i) = x
    rw [byteAt_memWriteAll, if_pos (Nat.le_add_right _ _), Nat.add_sub_cancel_left, hx, Option.getD_some]
  · cases ht; cases hresp

namespace Encoded

variable {W N : Nat} {u : BitVec W} {s t : State} {L : BitVec 4}

theorem toNat_count (he : Encoded N u s t L) (hW : WidthFits W N) : L.toNat = varLen N u := by
  rw [he.count, toNat_ofNat_varLen hW]

/-- DEC of a request at the same offset that declares the stored bytes or more, in either mode. -/
theorem decodeOp_setReq (he : Encoded N u s t L) (hW : WidthFits W N) (m : Mode) (ext : BitVec W → Word64) {q : Request}
    (hoff : q.off = s.req.off) (ha : L.toNat ≤ q.avail) (hr : q.off + q.avail ≤ 2 ^ s.aw) :
    ∃ t', decodeOp N m ext { t with req := q } = .next t' ∧ t'.resp = some ⟨.ok, ext (unpayload m u), L⟩ := by
  have hbytes := he.bytes
  rw [← hoff] at hbytes
  rw [he.toNat_count hW] at ha
  rw [← he.aw] at hr
  rw [he.count]
  exact decodeOp_of_startsWith (s := { t with req := q }) hW m ext hr ha hbytes

/-- The request of the ENC is such a one. -/
theorem decodeOp_sameReq (he : Encoded N u s t L) (hW : WidthFits W N) (m : Mode) (ext : BitVec W → Word64) :
    ∃ t', decodeOp N m ext t = .next t' ∧ t'.resp = some ⟨.ok, ext (unpayload m u), L⟩ := by
  have ha : L.toNat ≤ t.req.avail := by
    rw [he.toNat_count hW, he.req]
    exact he.room
  have hr : t.req.off + t.req.avail ≤ 2 ^ s.aw := by
    rw [he.req]
    exact he.inRange
  exact he.decodeOp_setReq hW m ext (congrArg Request.off he.req) ha hr

end Encoded

/-- R139 for both widths: the mode's two transforms cancel. -/
theorem decodeOp_of_encodeOp {W N : Nat} (hW : WidthFits W N) {m : Mode} {v : BitVec W} (ext : BitVec W → Word64)
    {s t : State} {L : BitVec 4} {q : Request} (ht : encodeOp N m v s = .next t) (hresp : t.resp = some ⟨.ok, 0, L⟩)
    (hoff : q.off = s.req.off) (ha : L.toNat ≤ q.avail) (hr : q.off + q.avail ≤ 2 ^ s.aw) :
    ∃ t', decodeOp N m ext { t with req := q } = .next t' ∧ t'.resp = some ⟨.ok, ext v, L⟩ := by
  have hdec := (encoded_of_encodeOp ht hresp).decodeOp_setReq hW m ext hoff ha hr
  rwa [unpayload_payload] at hdec

/-- Settles O41: `decodeOp_of_encodeOp` for each width. -/
theorem encodeDecodeRoundTrip : Obligations.EncodeDecodeRoundTrip :=
  ⟨fun _ _ _ _ _ ht hresp hoff ha hr => decodeOp_of_encodeOp widthFits32 sext32 ht hresp hoff ha hr,
    fun _ _ _ _ _ ht hresp hoff ha hr => decodeOp_of_encodeOp widthFits64 full64 ht hresp hoff ha hr⟩

/-- Settles O43: DEC finds the payload, in the one mode the value itself and in the other its transform. -/
theorem modeMismatchIsDetermined : Obligations.ModeMismatchIsDetermined :=
  ⟨fun _ _ _ ht hresp => (encoded_of_encodeOp ht hresp).decodeOp_sameReq widthFits32 .zigzag sext32,
    fun _ _ _ ht hresp => (encoded_of_encodeOp ht hresp).decodeOp_sameReq widthFits32 .raw sext32,
    fun _ _ _ ht hresp => (encoded_of_encodeOp ht hresp).decodeOp_sameReq widthFits64 .zigzag full64,
    fun _ _ _ ht hresp => (encoded_of_encodeOp ht hresp).decodeOp_sameReq widthFits64 .raw full64⟩

/-! ### A 32-bit encoding read as a 64-bit one -/

theorem zext32_toNat (u : Word32) : (zext32 u).toNat = u.toNat := by
  rw [zext32, BitVec.toNat_setWidth]
  omega

/-- R110: its conditions leave one length only. -/
theorem varLen_unique {W N k : Nat} {u : BitVec W} (h1 : 1 ≤ k) (hN : k ≤ N) (hfit : k < N → u.toNat < 2 ^ (7 * k))
    (hleast : ∀ j, 1 ≤ j → j < k → 2 ^ (7 * j) ≤ u.toNat) : varLen N u = k := by
  rcases lt_trichotomy (varLen N u) k with h | h | h
  · exact absurd (hleast _ (varLen_pos N u) h) (lt_of_varLen_lt u (h.trans_le hN)).not_ge
  · exact h
  · exact absurd (le_of_lt_varLen u k h1 h) (hfit (h.trans_le (varLen_le (h1.trans hN) u))).not_ge

/-- A 32-bit payload has the same length in both widths: it never takes more than five bytes. -/
theorem varLen_zext32 (u : Word32) : varLen 9 (zext32 u) = varLen 5 u := by
  have hle := varLen_le (by decide : 1 ≤ 5) u
  refine varLen_unique (varLen_pos 5 u) (by omega) (fun _ => ?_) (fun j h1 hj => ?_)
  · rw [zext32_toNat]
    rcases hle.lt_or_eq with hlt | heq
    · exact lt_of_varLen_lt u hlt
    · rw [heq]
      omega
  · rw [zext32_toNat]
    exact le_of_lt_varLen u j h1 hj

theorem encByte_zext32 (u : Word32) (L i : Nat) : encByte (zext32 u) L i = encByte u L i := by
  refine BitVec.eq_of_toNat_eq ?_
  by_cases h : i + 1 < L
  · rw [encByte_toNat_of_lt _ h, encByte_toNat_of_lt _ h, zext32_toNat]
  · rw [encByte_toNat_of_not_lt _ h, encByte_toNat_of_not_lt _ h, zext32_toNat]

/-- R113 (g): a 32-bit payload has the same bytes in both widths. -/
theorem encBytes_zext32 (u : Word32) : encBytes 9 (zext32 u) = encBytes 5 u := by
  rw [encBytes, encBytes, varLen_zext32]
  exact List.map_congr_left fun i _ => encByte_zext32 u _ i

/-- What ENC32 leaves behind is what an ENC of the zero-extended payload in 64 bits would. -/
theorem encoded_zext32 {u : Word32} {s t : State} {L : BitVec 4} (he : Encoded 5 u s t L) :
    Encoded 9 (zext32 u) s t L where
  aw := he.aw
  req := he.req
  inRange := he.inRange
  room := (varLen_zext32 u).trans_le he.room
  count := he.count.trans (congrArg _ (varLen_zext32 u).symm)
  bytes := (encBytes_zext32 u).symm ▸ he.bytes

/-- R95, R214: the 64-bit inverse transform of a 32-bit payload is the sign-extended value. -/
theorem zigZagDec_zext32_zigZagEnc (v : Word32) : zigZagDec (zext32 (zigZagEnc v)) = sext32 v := by
  rw [← zigZagEnc_sext32, zigZagDec_zigZagEnc]

/-- Settles O44: DEC64 finds the zero-extended payload; a zig-zag one has been the transform of the sign-extended value. -/
theorem widthMismatchIsDetermined : Obligations.WidthMismatchIsDetermined := by
  intro m s t L ht hresp
  have hdec := (encoded_zext32 (encoded_of_encodeOp ht hresp)).decodeOp_sameReq widthFits64 m full64
  cases m with
  | raw => exact hdec
  | zigzag =>
    simp only [payload, unpayload, zigZagDec_zext32_zigZagEnc] at hdec
    exact hdec

end Sys2Proof.Machine

/-! # The zig-zag transform and its four operations (O15 to O20)

The bits of both directions and the inverse laws stand above. Here come the readings: the sign decides between a shift and its
complement, which gives the numbers of R92; the decoder's reading, the magnitude law and the answers follow. -/

namespace Sys2Proof.Machine

/-- Settles O15: the two inverse laws, for each width. -/
theorem zigZagBijective : Obligations.ZigZagBijective :=
  ⟨fun x => ⟨zigZagDec_zigZagEnc x, zigZagEnc_zigZagDec x⟩, fun x => ⟨zigZagDec_zigZagEnc x, zigZagEnc_zigZagDec x⟩⟩

/-! ### Bit by bit -/

/-- R90's bit form: bit 0 is the sign, which is added to every bit moved up. -/
theorem zigZagEnc_bits {W : Nat} (hW : 0 < W) (v : BitVec W) :
    (zigZagEnc v).getLsbD 0 = v.getLsbD (W - 1) ∧
    ∀ i, 1 ≤ i → i ≤ W - 1 → (zigZagEnc v).getLsbD i = (v.getLsbD (i - 1) ^^ v.getLsbD (W - 1)) := by
  refine ⟨?_, fun i h1 hi => ?_⟩
  · simp [zigZagEnc_getLsbD v hW]
  · rw [zigZagEnc_getLsbD v (by omega), decide_eq_true h1, Bool.true_and]

/-- R91's bit form: the last bit is bit 0, which is added to every bit moved down. -/
theorem zigZagDec_bits {W : Nat} (hW : 0 < W) (u : BitVec W) :
    (zigZagDec u).getLsbD (W - 1) = u.getLsbD 0 ∧
    ∀ i, i ≤ W - 2 → (zigZagDec u).getLsbD i = (u.getLsbD (i + 1) ^^ u.getLsbD 0) := by
  refine ⟨?_, fun i hi => zigZagDec_getLsbD u (by omega)⟩
  rw [zigZagDec_getLsbD u (by omega), BitVec.getLsbD_of_ge u _ (by omega), Bool.false_xor]

/-- Settles O16: the formulas are the definitions, the bits `zigZagEnc_bits` and `zigZagDec_bits`, for each width. -/
theorem zigZagBitByBit : Obligations.ZigZagBitByBit :=
  ⟨fun v => ⟨rfl, zigZagEnc_bits (by decide) v⟩, fun u => ⟨rfl, zigZagDec_bits (by decide) u⟩,
    fun v => ⟨rfl, zigZagEnc_bits (by decide) v⟩, fun u => ⟨rfl, zigZagDec_bits (by decide) u⟩⟩

/-! ### The signed and unsigned readings -/

/-- Of a pattern without its sign bit nothing is left after a shift by all other bits. -/
theorem ushiftRight_last_of_msb_false {W : Nat} {v : BitVec W} (h : v.msb = false) : v >>> (W - 1) = 0#W := by
  refine BitVec.eq_of_toNat_eq ?_
  rw [BitVec.toNat_ushiftRight, Nat.shiftRight_eq_div_pow, Nat.div_eq_of_lt (BitVec.toNat_lt_of_msb_false h),
    BitVec.toNat_zero]

/-- R90 for a value that is not negative: the broadcast sign is 0. -/
theorem zigZagEnc_of_msb_false {W : Nat} {v : BitVec W} (h : v.msb = false) : zigZagEnc v = v <<< 1 := by
  rw [zigZagEnc, BitVec.sshiftRight_eq_of_msb_false h, ushiftRight_last_of_msb_false h, BitVec.xor_zero]

/-- R90 for a negative value: the broadcast sign is all ones. -/
theorem zigZagEnc_of_msb_true {W : Nat} {v : BitVec W} (h : v.msb = true) : zigZagEnc v = ~~~(v <<< 1) := by
  have hnot : (~~~v).msb = false := by simp [BitVec.msb_not, h]
  rw [zigZagEnc, BitVec.sshiftRight_eq_of_msb_true h, ushiftRight_last_of_msb_false hnot, BitVec.not_zero,
    BitVec.xor_allOnes]

/-- R92: the encoder's payload as a number. Twice the pattern fits the width below the sign bit; from there on it wraps once. -/
theorem zigZagEnc_toNat {W : Nat} (v : BitVec W) :
    ((zigZagEnc v).toNat : Int) = if 0 ≤ v.toInt then 2 * v.toInt else -2 * v.toInt - 1 := by
  have hdouble : (v <<< 1).toNat = v.toNat * 2 % 2 ^ W := by rw [BitVec.toNat_shiftLeft, Nat.shiftLeft_eq, pow_one]
  cases h : v.msb with
  | false =>
    have hlt := BitVec.msb_eq_false_iff_two_mul_lt.mp h
    rw [Nat.mod_eq_of_lt (by omega)] at hdouble
    rw [zigZagEnc_of_msb_false h, hdouble, if_pos (BitVec.toInt_nonneg_of_msb_false h), BitVec.toInt_eq_toNat_of_msb h]
    omega
  | true =>
    have hge := BitVec.msb_eq_true_iff_two_mul_ge.mp h
    have hlt := v.isLt
    have hneg : v.toInt = v.toNat - (2 ^ W : Nat) := by rw [BitVec.toInt_eq_msb_cond, if_pos h]
    rw [Nat.mod_eq_sub_mod (by omega), Nat.mod_eq_of_lt (by omega)] at hdouble
    rw [zigZagEnc_of_msb_true h, BitVec.toNat_not, hdouble, if_neg (BitVec.toInt_neg_of_msb_true h).not_ge, hneg]
    omega

/-- R92: the decoder's value as a number, since its payload is the one it was given. -/
theorem zigZagDec_toInt {W : Nat} (u : BitVec W) :
    (zigZagDec u).toInt = if u.toNat % 2 = 0 then (u.toNat : Int) / 2 else -(((u.toNat : Int) + 1) / 2) := by
  have h := zigZagEnc_toNat (zigZagDec u)
  rw [zigZagEnc_zigZagDec] at h
  split_ifs at h ⊢ <;> omega

/-- Settles O17: the two readings for each width, and the decoder's at the two largest payloads. -/
theorem zigZagOnReadings : Obligations.ZigZagOnReadings :=
  ⟨zigZagEnc_toNat, zigZagDec_toInt, zigZagEnc_toNat, zigZagDec_toInt, (zigZagDec_toInt _).trans rfl,
    (zigZagDec_toInt _).trans rfl, (zigZagDec_toInt _).trans rfl, (zigZagDec_toInt _).trans rfl⟩

/-- R94, from R92: with `j = k - 1`, twice a value is compared with twice `2^j`. -/
theorem zigZagEnc_toNat_lt_two_pow {W k : Nat} (v : BitVec W) (hk : 1 ≤ k) :
    (zigZagEnc v).toNat < 2 ^ k ↔ -2 ^ (k - 1) ≤ v.toInt ∧ v.toInt ≤ 2 ^ (k - 1) - 1 := by
  obtain ⟨j, rfl⟩ := Nat.exists_eq_add_of_le' hk
  have h := zigZagEnc_toNat v
  rw [Nat.add_sub_cancel, ← Int.ofNat_lt, Nat.cast_pow, Nat.cast_ofNat, pow_succ']
  split_ifs at h <;> omega

/-- Settles O18: `zigZagEnc_toNat_lt_two_pow` for each width. -/
theorem zigZagMagnitude : Obligations.ZigZagMagnitude :=
  ⟨fun v _ hk _ => zigZagEnc_toNat_lt_two_pow v hk, fun v _ hk _ => zigZagEnc_toNat_lt_two_pow v hk⟩

/-! ### The two widths and the four operations -/

/-- R95: under `P = 0` ENC32 and ENC64 write the same bytes for a 32-bit value. -/
theorem encBytes_payload_sext32 (v : Word32) :
    encBytes 5 (payload .zigzag v) = encBytes 9 (payload .zigzag (sext32 v)) := by
  simp only [payload, zigZagEnc_sext32, encBytes_zext32]

/-- Settles O19: the transforms and the bytes agree under `P = 0`; under `P = 1` the two encodings of -1 are evaluated. -/
theorem zigZagWidthsAgree : Obligations.ZigZagWidthsAgree :=
  ⟨zigZagEnc_sext32, encBytes_payload_sext32, by decide, by decide⟩

/-- Settles O20: each operation's meaning, read at its operand, is the formula; a 32-bit operand is `State.val32`. -/
theorem transformResults : Obligations.TransformResults := by
  refine fun s => ⟨?_, ?_⟩
  · rintro v rfl
    rw [← State.val32_eq]
    exact ⟨rfl, rfl⟩
  · rintro v rfl
    exact ⟨rfl, rfl⟩

end Sys2Proof.Machine

/-! # Lengths, the encoding loop and ENC (O21, O25 to O27, O30 to O32)

First the length, as the conditions that leave one value and as a bound on the payload; then the source's loop, whose
bytes and length are found one group at a time; then the signed values of each length; last what ENC stores, with and
without enough room. Each argument is made once for both widths. -/

namespace Sys2Proof.Machine

/-! ### The length as the least number of groups -/

/-- R110: the length is the one number of groups in `1 .. N` that meets the two conditions. -/
theorem varLen_eq_iff {W N k : Nat} (u : BitVec W) (h1 : 1 ≤ k) (hN : k ≤ N) :
    varLen N u = k ↔ (k = N ∨ u.toNat < 2 ^ (7 * k)) ∧ ∀ j, 1 ≤ j → j < k → 2 ^ (7 * j) ≤ u.toNat := by
  refine ⟨?_, fun ⟨hfit, hleast⟩ => varLen_unique h1 hN (fun hlt => hfit.resolve_left hlt.ne) hleast⟩
  rintro rfl
  exact ⟨hN.eq_or_lt.imp_right (lt_of_varLen_lt u), le_of_lt_varLen u⟩

/-- Below the maximum, the length is at most `k` exactly when the payload fits `k` groups. -/
theorem varLen_le_iff {W N k : Nat} (u : BitVec W) (h1 : 1 ≤ k) (hN : k < N) :
    varLen N u ≤ k ↔ u.toNat < 2 ^ (7 * k) := by
  refine ⟨fun h => ?_, fun h => not_lt.mp fun hlt => (le_of_lt_varLen u k h1 hlt).not_gt h⟩
  exact (lt_of_varLen_lt u (h.trans_lt hN)).trans_le (Nat.pow_le_pow_right (by decide) (Nat.mul_le_mul_left 7 h))

/-- A shift leaves nothing of a pattern exactly when the bits shifted out hold it. -/
theorem ushiftRight_eq_zero_iff {W : Nat} (u : BitVec W) (n : Nat) : u >>> n = 0 ↔ u.toNat < 2 ^ n := by
  rw [BitVec.toNat_eq, BitVec.toNat_ushiftRight, Nat.shiftRight_eq_div_pow, BitVec.ofNat_eq_ofNat, BitVec.toNat_zero,
    Nat.div_eq_zero_iff_lt (Nat.two_pow_pos n)]

/-- R110 with shifts in place of powers. -/
theorem varLen_eq_iff_shifts {W N k : Nat} (u : BitVec W) (h1 : 1 ≤ k) (hN : k ≤ N) :
    varLen N u = k ↔ (k = N ∨ u >>> (7 * k) = 0) ∧ ∀ j, 1 ≤ j → j < k → u >>> (7 * j) ≠ 0 := by
  simp only [ne_eq, ushiftRight_eq_zero_iff, not_lt]
  exact varLen_eq_iff u h1 hN

/-- Settles O21: the two forms of R110 and the range of the length, for each width. -/
theorem varLenIsLeast : Obligations.VarLenIsLeast :=
  ⟨fun u _ h1 hN => ⟨varLen_eq_iff u h1 hN, varLen_eq_iff_shifts u h1 hN⟩,
    fun u => ⟨varLen_pos 5 u, varLen_le (by decide) u⟩,
    fun u _ h1 hN => ⟨varLen_eq_iff u h1 hN, varLen_eq_iff_shifts u h1 hN⟩,
    fun u => ⟨varLen_pos 9 u, varLen_le (by decide) u⟩⟩

/-- Settles O25: the law stands above, where a 32-bit encoding is read as a 64-bit one. -/
theorem encodingWidthsAgree : Obligations.EncodingWidthsAgree :=
  fun u => (encBytes_zext32 u).symm

/-! ### The source's loop -/

/-- A payload of more than one group is one group longer than what a shift leaves of it. -/
theorem varLen_ushiftRight {W n : Nat} {u : BitVec W} (h : u >>> 7 ≠ 0) :
    varLen (n + 2) u = varLen (n + 1) (u >>> 7) + 1 := by
  have hshift : (u >>> 7).toNat = u.toNat / 2 ^ 7 := by rw [BitVec.toNat_ushiftRight, Nat.shiftRight_eq_div_pow]
  have hle : varLen (n + 1) (u >>> 7) ≤ n + 1 := varLen_le (Nat.succ_pos n) _
  refine varLen_unique (Nat.succ_pos _) (by omega) (fun hlt => ?_) (fun j h1 hj => ?_)
  · have hfit := lt_of_varLen_lt (N := n + 1) (u >>> 7) (by omega)
    rw [hshift] at hfit
    rw [Nat.mul_succ, pow_add]
    exact Nat.lt_mul_of_div_lt hfit (by decide)
  · obtain ⟨i, rfl⟩ := Nat.exists_eq_add_of_le' h1
    rcases Nat.eq_zero_or_pos i with rfl | hi
    · exact not_lt.mp fun hlt => h ((ushiftRight_eq_zero_iff u 7).mpr hlt)
    · have hleast := le_of_lt_varLen (N := n + 1) (u >>> 7) i hi (by omega)
      rw [hshift, Nat.le_div_iff_mul_le (by decide)] at hleast
      rwa [Nat.mul_succ, pow_add]

/-- A payload of one group takes one byte. -/
theorem varLen_of_ushiftRight_eq_zero {W N : Nat} {u : BitVec W} (hN : 1 ≤ N) (h : u >>> 7 = 0) : varLen N u = 1 :=
  varLen_unique le_rfl hN (fun _ => (ushiftRight_eq_zero_iff u 7).mp h) (fun _ h1 hj => absurd hj h1.not_gt)

/-- R111: an encoding of one byte is the pattern's low 8 bits. -/
theorem encBytes_of_varLen_eq_one {W N : Nat} {u : BitVec W} (h : varLen N u = 1) : encBytes N u = [u.setWidth 8] := by
  simp [encBytes, h, encByte]

/-- R111: the byte after the first is the first of what a shift by one group leaves. -/
theorem encByte_succ {W : Nat} (u : BitVec W) (L i : Nat) : encByte u (L + 1) (i + 1) = encByte (u >>> 7) L i := by
  simp only [encByte, Nat.add_lt_add_iff_right, ← BitVec.shiftRight_add, Nat.mul_succ, Nat.add_comm 7]

/-- R111: the first of several bytes is the first group with its flag, the others encode what a shift leaves. -/
theorem encBytes_ushiftRight {W n : Nat} {u : BitVec W} (h : u >>> 7 ≠ 0) :
    encBytes (n + 2) u = (0x80#8 ||| low7 u) :: encBytes (n + 1) (u >>> 7) := by
  have hfirst : encByte u (varLen (n + 1) (u >>> 7) + 1) 0 = 0x80#8 ||| low7 u :=
    if_pos (Nat.succ_lt_succ (varLen_pos (n + 1) (u >>> 7)))
  rw [encBytes, encBytes, varLen_ushiftRight h, List.range_succ_eq_map, List.map_cons, List.map_map, hfirst]
  exact congrArg _ (List.map_congr_left fun i _ => encByte_succ u _ i)

/-- R112: along the loop, one group at a time, its bytes are those of R111. -/
theorem encLoop_eq_encBytes {W : Nat} (n : Nat) (u : BitVec W) : encLoop n u = encBytes (n + 1) u := by
  induction n generalizing u with
  | zero => exact (encBytes_of_varLen_eq_one rfl).symm
  | succ n ih =>
    rw [encLoop]
    split_ifs with h
    · rw [ih, encBytes_ushiftRight h]
    · rw [encBytes_of_varLen_eq_one (varLen_of_ushiftRight_eq_zero (Nat.succ_pos _) (not_not.mp h))]

/-- R111: the bytes depend on the bound only through the length. -/
theorem encBytes_congr {W M N : Nat} {u : BitVec W} (h : varLen M u = varLen N u) : encBytes M u = encBytes N u := by
  rw [encBytes, encBytes, h]

/-- A larger bound does not make a 32-bit payload longer, since 35 bits hold it. -/
theorem varLen_add_maxLen32 (u : Word32) (n : Nat) : varLen (n + 5) u = varLen 5 u := by
  have hle : varLen 5 u ≤ 5 := varLen_le (by decide) u
  refine varLen_unique (varLen_pos 5 u) (by omega) (fun _ => ?_) (le_of_lt_varLen u)
  rcases hle.lt_or_eq with hlt | heq
  · exact lt_of_varLen_lt u hlt
  · rw [heq]
    omega

/-- R112: without the bound a payload of `2^63` or more would take ten groups. -/
theorem varLen_eq_ten (u : Word64) (n : Nat) (h : 2 ^ 63 ≤ u.toNat) : varLen (n + 10) u = 10 := by
  refine varLen_unique (by decide) (by omega) (fun _ => by omega) (fun j _ hj => ?_)
  exact (Nat.pow_le_pow_right (by decide) (by omega)).trans h

/-- Settles O26: the loop by `encLoop_eq_encBytes`, and what a larger bound does to the length. -/
theorem encodingLoopAgrees : Obligations.EncodingLoopAgrees := by
  refine ⟨encLoop_eq_encBytes 4, encLoop_eq_encBytes 8, fun u n => ?_, fun u n h => ?_⟩
  · rw [encLoop_eq_encBytes, show 4 + n + 1 = n + 5 by omega]
    exact encBytes_congr (varLen_add_maxLen32 u n)
  · rw [encLoop_eq_encBytes, encBytes_length, show 9 + n + 1 = n + 10 by omega, varLen_eq_ten u n h]

/-! ### The signed values of each length -/

/-- A pattern below `2^n`, `n` less than its width, is a value from 0 to `2^n - 1`. -/
theorem toNat_lt_two_pow_iff_toInt {W n : Nat} (hn : n < W) (v : BitVec W) :
    v.toNat < 2 ^ n ↔ 0 ≤ v.toInt ∧ v.toInt < 2 ^ n := by
  have hlt := v.isLt
  have hpow : 2 * 2 ^ n ≤ 2 ^ W := (pow_succ' 2 n).symm.trans_le (Nat.pow_le_pow_right (by decide) hn)
  have hcast : ((2 ^ n : Nat) : Int) = 2 ^ n := by norm_cast
  rw [BitVec.toInt_eq_toNat_cond, ← hcast]
  split_ifs <;> omega

section SignedValues

variable {W N : Nat} (v : BitVec W)

/-- R118, `P = 1`: a raw value takes at most `k` bytes, `k < N`, when it is not negative and fits `k` groups. -/
theorem varLen_raw_le_iff (hW : 7 * (N - 1) < W) {k : Nat} (h1 : 1 ≤ k) (hN : k < N) :
    varLen N (payload .raw v) ≤ k ↔ 0 ≤ v.toInt ∧ v.toInt < 2 ^ (7 * k) :=
  (varLen_le_iff v h1 hN).trans (toNat_lt_two_pow_iff_toInt (by omega) v)

/-- R118, `P = 1`: it takes exactly `k` bytes when `k - 1` groups do not hold it; zero takes one. -/
theorem varLen_raw_eq_iff (hW : 7 * (N - 1) < W) {k : Nat} (h1 : 1 ≤ k) (hN : k < N) :
    varLen N (payload .raw v) = k ↔
      (2 ^ (7 * (k - 1)) ≤ v.toInt ∧ v.toInt ≤ 2 ^ (7 * k) - 1) ∨ (k = 1 ∧ v.toInt = 0) := by
  have hk := varLen_raw_le_iff v hW h1 hN
  have hpos := varLen_pos N (payload .raw v)
  obtain ⟨j, rfl⟩ := Nat.exists_eq_add_of_le' h1
  rw [Nat.add_sub_cancel]
  rcases Nat.eq_zero_or_pos j with rfl | hj
  · rw [Nat.mul_zero, pow_zero]
    omega
  · have hj' := varLen_raw_le_iff v hW hj (Nat.lt_of_succ_lt hN)
    have hpow : (0 : Int) < 2 ^ (7 * j) := by positivity
    omega

/-- R118, `P = 1`: negative values, and those that `N - 1` groups do not hold, take `N` bytes. -/
theorem varLen_raw_eq_max_iff (hW : 7 * (N - 1) < W) (hN : 2 ≤ N) :
    varLen N (payload .raw v) = N ↔ v.toInt < 0 ∨ 2 ^ (7 * (N - 1)) ≤ v.toInt := by
  have hk := varLen_raw_le_iff v hW (k := N - 1) (by omega) (by omega)
  have hle := varLen_le (by omega : 1 ≤ N) (payload .raw v)
  omega

/-- R118, `P = 0`: by the magnitude law R94. -/
theorem varLen_zigzag_le_iff {k : Nat} (h1 : 1 ≤ k) (hN : k < N) :
    varLen N (payload .zigzag v) ≤ k ↔ -2 ^ (7 * k - 1) ≤ v.toInt ∧ v.toInt ≤ 2 ^ (7 * k - 1) - 1 :=
  (varLen_le_iff (zigZagEnc v) h1 hN).trans (zigZagEnc_toNat_lt_two_pow v (by omega))

/-- R118, `P = 0`: the values outside the range of `N - 1` bytes take `N`. -/
theorem varLen_zigzag_eq_max_iff (hN : 2 ≤ N) :
    varLen N (payload .zigzag v) = N ↔
      v.toInt < -2 ^ (7 * (N - 1) - 1) ∨ 2 ^ (7 * (N - 1) - 1) - 1 < v.toInt := by
  have hk := varLen_zigzag_le_iff v (N := N) (k := N - 1) (by omega) (by omega)
  have hle := varLen_le (by omega : 1 ≤ N) (payload .zigzag v)
  omega

end SignedValues

/-- Settles O27: each clause for each width. -/
theorem lengthBySignedValue : Obligations.LengthBySignedValue :=
  ⟨fun v => ⟨fun _ h1 hk => ⟨varLen_raw_eq_iff v (by decide) h1 (Nat.lt_succ_of_le hk),
        varLen_zigzag_le_iff v h1 (Nat.lt_succ_of_le hk)⟩,
      varLen_raw_eq_max_iff v (by decide) (by decide), varLen_zigzag_eq_max_iff v (by decide)⟩,
    fun v => ⟨fun _ h1 hk => ⟨varLen_raw_eq_iff v (by decide) h1 (Nat.lt_succ_of_le hk),
        varLen_zigzag_le_iff v h1 (Nat.lt_succ_of_le hk)⟩,
      varLen_raw_eq_max_iff v (by decide) (by decide), varLen_zigzag_eq_max_iff v (by decide)⟩⟩

/-! ### ENC with and without enough room -/

/-- R114, R115, R117: ENC with enough room completes and stores the encoding's bytes, one access a byte. -/
theorem encodeOp_of_room {W N : Nat} {m : Mode} {v : BitVec W} {s : State}
    (hr : s.req.off + s.req.avail ≤ 2 ^ s.aw) (hroom : varLen N (payload m v) ≤ s.req.avail) :
    encodeOp N m v s = .next (s.answer ⟨.ok, 0, BitVec.ofNat 4 (varLen N (payload m v))⟩
      (((encBytes N (payload m v)).zipIdx s.req.off).map fun p => .write p.2 p.1) s.req.off
      (encBytes N (payload m v))) := by
  rw [encodeOp_eq, if_pos (s.inRange_iff.mpr hr), if_neg hroom.not_gt]
  rfl

/-- R116, R181: ENC without enough room answers ERR_CAPACITY and changes nothing else. -/
theorem encodeOp_of_no_room {W N : Nat} {m : Mode} {v : BitVec W} {s : State}
    (hr : s.req.off + s.req.avail ≤ 2 ^ s.aw) (hroom : s.req.avail < varLen N (payload m v)) :
    encodeOp N m v s = .next { s with resp := some ⟨.capacity, 0, 0⟩ } := by
  rw [encodeOp_eq, if_pos (s.inRange_iff.mpr hr), if_pos hroom]

/-- R45: the stores of a sequence of bytes from `a` upward, written with a reader `f` that sees these bytes. -/
theorem writes_eq_map_range {f : Nat → Byte} {vs : List Byte} (h : StartsWith f vs) (a : Nat) :
    (vs.zipIdx a).map (fun p => Access.write p.2 p.1) =
      (List.range vs.length).map fun i => .write (a + i) (f i) := by
  refine List.ext_getElem? fun i => ?_
  simp only [List.getElem?_map, List.getElem?_zipIdx, Option.map_map]
  by_cases hi : i < vs.length
  · simp [hi, h i _ (List.getElem?_eq_getElem hi)]
  · simp [hi]

/-- A sequence of stores leaves the bytes below and above it. -/
theorem byteAt_answer_of_outside (s : State) (r : Response) (log : List Access) {a b : Nat} {vs : List Byte}
    (h : b < a ∨ a + vs.length ≤ b) : (s.answer r log a vs).byteAt b = s.byteAt b := by
  change (s.memWriteAll a vs).byteAt b = s.byteAt b
  rw [byteAt_memWriteAll]
  split_ifs with hb
  · rw [List.getElem?_eq_none (by omega), Option.getD_none]
  · rfl

/-- R111: every byte of an encoding but the last is 7 bits of the payload with the continuation flag. -/
theorem encByte_of_lt {W L i : Nat} (u : BitVec W) (hW : 7 ≤ W) (h : i + 1 < L) :
    encByte u L i = 0x80#8 ||| ((u >>> (7 * i)).extractLsb' 0 7).setWidth 8 := by
  rw [encByte, if_pos h, low7, BitVec.setWidth_eq_extractLsb' hW]

/-- R111: the last byte is the next 8 bits as they are. -/
theorem encByte_last {W L : Nat} (u : BitVec W) (hW : 8 ≤ W) :
    encByte u L (L - 1) = (u >>> (7 * (L - 1))).extractLsb' 0 8 := by
  rw [encByte, if_neg (by omega), BitVec.setWidth_eq_extractLsb' hW]

/-- R114, R115, R45, R117 for both widths. That the bytes stand in the buffer is `encoded_of_encodeOp`. -/
theorem encodeOp_writes {W N : Nat} (hW : 8 ≤ W) {m : Mode} {v u : BitVec W} {s : State} {L : Nat}
    (hu : u = payload m v) (hL : L = varLen N u)
    (hr : s.req.off + s.req.avail ≤ 2 ^ s.aw) (hroom : L ≤ s.req.avail) :
    ∃ t, encodeOp N m v s = .next t ∧ t.resp = some ⟨.ok, 0, BitVec.ofNat 4 L⟩ ∧
      t.aw = s.aw ∧ t.req = s.req ∧ t.rdata = s.rdata ∧ t.host = s.host ∧
      t.bus = s.bus ++ (List.range L).map (fun i => .write (s.req.off + i) (t.byteAt (s.req.off + i))) ∧
      (∀ i, i + 1 < L → t.byteAt (s.req.off + i) = 0x80#8 ||| ((u >>> (7 * i)).extractLsb' 0 7).setWidth 8) ∧
      t.byteAt (s.req.off + (L - 1)) = (u >>> (7 * (L - 1))).extractLsb' 0 8 ∧
      ∀ a, a < s.req.off ∨ s.req.off + L ≤ a → t.byteAt a = s.byteAt a := by
  subst hu hL
  have hpos := varLen_pos N (payload m v)
  have hrun := encodeOp_of_room hr hroom
  have hbytes := (encoded_of_encodeOp hrun rfl).bytes
  refine ⟨_, hrun, rfl, rfl, rfl, rfl, rfl, ?_, fun i hi => ?_, ?_, fun a ha => ?_⟩
  · rw [← encBytes_length N (payload m v)]
    exact congrArg (s.bus ++ ·) (writes_eq_map_range hbytes s.req.off)
  · exact (hbytes.apply (by omega)).trans (encByte_of_lt _ (by omega) hi)
  · exact (hbytes.apply (by omega)).trans (encByte_last _ hW)
  · rw [← encBytes_length N (payload m v)] at ha
    exact byteAt_answer_of_outside s _ _ ha

/-- Settles O30: `encodeOp_writes` for 32 bits. -/
theorem enc32Writes : Obligations.Enc32Writes :=
  fun _ _ _ _ hu hL hr hroom => encodeOp_writes (by decide) hu hL hr hroom

/-- Settles O31: `encodeOp_writes` for 64 bits. -/
theorem enc64Writes : Obligations.Enc64Writes :=
  fun _ _ _ _ hu hL hr hroom => encodeOp_writes (by decide) hu hL hr hroom

/-- `N` bytes of room are enough for every value. -/
theorem encodeOp_completes {W N : Nat} (hN : 1 ≤ N) (m : Mode) (v : BitVec W) {s : State}
    (hr : s.req.off + s.req.avail ≤ 2 ^ s.aw) (hroom : N ≤ s.req.avail) :
    ∃ t n, encodeOp N m v s = .next t ∧ t.resp = some ⟨.ok, 0, n⟩ :=
  ⟨_, _, encodeOp_of_room hr ((varLen_le hN _).trans hroom), rfl⟩

/-- Settles O32: the capacity check's two outcomes, for each width. -/
theorem encCapacity : Obligations.EncCapacity :=
  fun m s hr => ⟨encodeOp_of_no_room (v := s.val32) hr, encodeOp_of_no_room (v := s.val64) hr,
    encodeOp_completes (by decide) m s.val32 hr, encodeOp_completes (by decide) m s.val64 hr⟩

end Sys2Proof.Machine

/-! # DEC (O33 to O36)

First the accumulator of any bytes, bit by bit: every bit comes from one byte; then where DEC stops, and with it the answer
to a complete and to an incomplete value; last that DEC32 sees four bits of a fifth byte only. -/

namespace Sys2Proof.Machine

/-! ### The accumulator of any bytes, bit by bit -/

/-- The index of the byte that bit `p` of the accumulator comes from: each byte gives 7 bits, and the byte at index `N - 1`
all bits from its offset on (R131, R133). -/
def groupIndex (N p : Nat) : Nat := min (p / 7) (N - 1)

theorem groupIndex_eq_iff {N i p : Nat} (hi : i < N - 1) : groupIndex N p = i ↔ 7 * i ≤ p ∧ p < 7 * i + 7 := by
  unfold groupIndex; omega

theorem groupIndex_eq_last_iff {N p : Nat} : groupIndex N p = N - 1 ↔ 7 * (N - 1) ≤ p := by
  unfold groupIndex; omega

theorem le_groupIndex {N n p : Nat} (hn : n < N) (hp : 7 * n ≤ p) : n ≤ groupIndex N p := by
  unfold groupIndex; omega

/-- R131, R133: a byte contributes the bits that come from its index. -/
theorem contribution_getLsbD_eq {W N i : Nat} (hW : WidthFits W N) (b : Nat → Byte) (hi : i < N) (p : Nat) :
    (contribution W N b i).getLsbD p =
      (decide (p < W) && decide (groupIndex N p = i) && (b i).getLsbD (p - 7 * i)) := by
  have hport := hW.port
  unfold contribution
  split_ifs with hlast
  · subst hlast
    rw [lastGroup_getLsbD _ _ (by omega)]
    simp only [groupIndex_eq_last_iff]
  · rw [group_getLsbD _ _ (by omega)]
    simp only [groupIndex_eq_iff (show i < N - 1 by omega), Bool.decide_and, Bool.and_assoc]

/-- The accumulator of the bytes `0 .. n-1`: the bits that come from these bytes, and zeros (R131, R133). -/
theorem accumulate_getLsbD_eq {W N n : Nat} (hW : WidthFits W N) (b : Nat → Byte) (hn : n ≤ N) (p : Nat) :
    (accumulate W N b n).getLsbD p =
      (decide (p < W) && decide (groupIndex N p < n) && (b (groupIndex N p)).getLsbD (p - 7 * groupIndex N p)) := by
  induction n with
  | zero => simp [accumulate]
  | succ n ih =>
    rw [accumulate, BitVec.getLsbD_or, ih (by omega), contribution_getLsbD_eq hW b (by omega)]
    rcases lt_trichotomy (groupIndex N p) n with h | h | h
    · simp [h, h.ne, h.le]
    · simp [h]
    · simp [h.ne', h.not_ge, h.not_gt]

section Accumulator

variable {W N k : Nat} (hW : WidthFits W N) (b : Nat → Byte)
include hW

/-- R131: every byte before index `N - 1` has its low 7 bits at its offset. -/
theorem accumulate_getLsbD_group {i j : Nat} (hk : k < N) (hik : i ≤ k) (hi : i < N - 1) (hj : j < 7)
    (hp : 7 * i + j < W) : (accumulate W N b (k + 1)).getLsbD (7 * i + j) = (b i).getLsbD j := by
  rw [accumulate_getLsbD_eq hW b hk, (groupIndex_eq_iff hi).mpr (by omega)]
  simp [hp, hik]

/-- R133: the byte at index `N - 1` has the bits that the width keeps at its offset. -/
theorem accumulate_getLsbD_last {j : Nat} (hp : 7 * (N - 1) + j < W) :
    (accumulate W N b (N - 1 + 1)).getLsbD (7 * (N - 1) + j) = (b (N - 1)).getLsbD j := by
  have hpos := hW.pos
  rw [accumulate_getLsbD_eq hW b (by omega), groupIndex_eq_last_iff.mpr (Nat.le_add_right _ j)]
  simp [hp]

/-- R131: the accumulator is zero above the last group, as long as byte `N - 1` is not read. -/
theorem accumulate_getLsbD_above {p : Nat} (hk : k < N - 1) (hp : 7 * (k + 1) ≤ p) :
    (accumulate W N b (k + 1)).getLsbD p = false := by
  have hidx : k + 1 ≤ groupIndex N p := le_groupIndex (by omega) hp
  rw [accumulate_getLsbD_eq hW b (by omega)]
  simp [hidx.not_gt]

end Accumulator

/-! ### A complete and an incomplete value -/

/-- R130: the terminal index, from the continuation flags of the bytes at `REQ.OFF` and up. -/
theorem terminalIndex_eq {N k : Nat} {s : State} (hk : k ≤ N - 1)
    (hcont : ∀ i, i < k → (s.byteAt (s.req.off + i)).getLsbD 7 = true)
    (hstop : k < N - 1 → (s.byteAt (s.req.off + k)).getLsbD 7 = false) : terminalIndex N s.wireByte = k :=
  terminalFrom_unique s.wireByte (N - 1) 0 k (Nat.zero_le k) (by omega) (fun h => hstop (by omega))
    fun i _ => hcont i

/-- R135, R136, R46: DEC of a value that ends at index `k` inside the valid bytes. -/
theorem decodeOp_of_complete {W N k : Nat} (m : Mode) (ext : BitVec W → Word64) {s : State}
    (hr : s.req.off + s.req.avail ≤ 2 ^ s.aw) (hv : k < s.req.avail) (hk : k ≤ N - 1)
    (hcont : ∀ i, i < k → (s.byteAt (s.req.off + i)).getLsbD 7 = true)
    (hstop : k < N - 1 → (s.byteAt (s.req.off + k)).getLsbD 7 = false) :
    decodeOp N m ext s = .next { s with
      resp := some ⟨.ok, ext (unpayload m (accumulate W N s.wireByte (k + 1))), BitVec.ofNat 4 (k + 1)⟩
      bus := s.bus ++ (List.range (k + 1)).map (fun i => .read (s.req.off + i)) } := by
  rw [decodeOp_eq, if_pos (s.inRange_iff.mpr hr), terminalIndex_eq hk hcont hstop, if_pos hv, readsFrom_first]

/-- Settles O33: the answer is `decodeOp_of_complete`, whose accumulator is known bit by bit; after a
fifth byte the bits above lie beyond its width. -/
theorem dec32Result : Obligations.Dec32Result := by
  intro m s k hr hv hk hcont hstop
  refine ⟨accumulate 32 5 s.wireByte (k + 1), fun i j hik hi hj => ?_, ?_, fun p hp => ?_,
    decodeOp_of_complete m sext32 hr hv hk hcont hstop⟩
  · exact accumulate_getLsbD_group widthFits32 s.wireByte (by omega) hik hi hj (by omega)
  · rintro rfl j hj
    exact accumulate_getLsbD_last widthFits32 s.wireByte (by omega)
  · rcases hk.lt_or_eq with hlt | rfl
    · exact accumulate_getLsbD_above widthFits32 s.wireByte hlt hp
    · exact BitVec.getLsbD_of_ge _ p (by omega)

/-- Settles O34: as O33; the ninth byte fills the accumulator. -/
theorem dec64Result : Obligations.Dec64Result := by
  intro m s k hr hv hk hcont hstop
  refine ⟨accumulate 64 9 s.wireByte (k + 1), fun i j hik hi hj => ?_, ?_, fun hlt p hp => ?_,
    decodeOp_of_complete m full64 hr hv hk hcont hstop⟩
  · exact accumulate_getLsbD_group widthFits64 s.wireByte (by omega) hik hi hj (by omega)
  · rintro rfl j hj
    exact accumulate_getLsbD_last widthFits64 s.wireByte (by omega)
  · exact accumulate_getLsbD_above widthFits64 s.wireByte hlt hp

/-- R137: the terminal byte is not among the valid bytes when each of these continues and there are fewer than `N`. -/
theorem avail_le_terminalIndex {N : Nat} {s : State} (ha : s.req.avail < N)
    (hcont : ∀ i, i < s.req.avail → (s.byteAt (s.req.off + i)).getLsbD 7 = true) :
    s.req.avail ≤ terminalIndex N s.wireByte := by
  obtain ⟨-, -, hstop, -⟩ := terminalFrom_spec s.wireByte (N - 1) 0
  by_contra! hlt
  unfold terminalIndex at hlt
  exact Bool.false_ne_true ((hstop (by omega)).symm.trans (hcont _ hlt))

/-- R137, R182, R46: DEC of a value that does not end inside the valid bytes. -/
theorem decodeOp_of_truncated {W N : Nat} (m : Mode) (ext : BitVec W → Word64) {s : State}
    (hr : s.req.off + s.req.avail ≤ 2 ^ s.aw) (ha : s.req.avail < N)
    (hcont : ∀ i, i < s.req.avail → (s.byteAt (s.req.off + i)).getLsbD 7 = true) :
    decodeOp N m ext s = .next { s with
      resp := some ⟨.truncated, 0, 0⟩
      bus := s.bus ++ (List.range s.req.avail).map (fun i => .read (s.req.off + i)) } := by
  rw [decodeOp_eq, if_pos (s.inRange_iff.mpr hr), if_neg (avail_le_terminalIndex ha hcont).not_gt, readsFrom_first]

/-- Settles O35: `decodeOp_of_truncated` for each width. -/
theorem decTruncated : Obligations.DecTruncated := by
  rintro m s _ (rfl | rfl) hr ha hcont
  · exact decodeOp_of_truncated m sext32 hr ha hcont
  · exact decodeOp_of_truncated m full64 hr ha hcont

/-! ### The fifth byte of DEC32 -/

/-- R133: at index 4 the 32-bit accumulator has room for four bits. -/
theorem lastGroup_of_low4 {b c : Byte} (h : b.extractLsb' 0 4 = c.extractLsb' 0 4) :
    lastGroup 32 4 b = lastGroup 32 4 c := by
  refine BitVec.eq_of_getLsbD_eq fun p hp => ?_
  have hbit : b.getLsbD (p - 7 * 4) = c.getLsbD (p - 7 * 4) := by
    simpa [show p - 28 < 4 by omega] using congrArg (BitVec.getLsbD · (p - 7 * 4)) h
  rw [lastGroup_getLsbD _ _ (by decide), lastGroup_getLsbD _ _ (by decide), hbit]

/-- DEC answers alike where it stops at the same index and gathers the same contributions. -/
theorem decodeOp_sameAnswer_of_contribution {W N : Nat} (hN : 1 ≤ N) (m : Mode) (ext : BitVec W → Word64) {s t : State}
    (h : SameWindow s t) (hk : terminalIndex N s.wireByte = terminalIndex N t.wireByte)
    (hc : ∀ j, j < N → contribution W N s.wireByte j = contribution W N t.wireByte j) :
    SameAnswer s t (decodeOp N m ext s) (decodeOp N m ext t) := by
  have hacc : accumulate W N s.wireByte (terminalIndex N t.wireByte + 1) =
      accumulate W N t.wireByte (terminalIndex N t.wireByte + 1) :=
    accumulate_congr _ _ _ fun j hj => hc j (hj.trans_le (terminalIndex_lt hN _))
  rw [decodeOp_eq, decodeOp_eq, hk, hacc, h.inRange, h.avail, h.readsFrom, h.readsFrom]
  split_ifs
  · exact sameAnswer_log s t _ _
  · exact sameAnswer_log s t _ _
  · exact sameAnswer_response s t _

/-- R130: the flag of the byte at index `N - 1` is not tested, so the bytes before it say where a reader stops. -/
theorem terminalIndex_congr {N : Nat} (hN : 1 ≤ N) {b c : Nat → Byte} (h : ∀ i, i < N - 1 → b i = c i) :
    terminalIndex N b = terminalIndex N c := by
  have hb := terminalIndex_lt hN b
  have hc := terminalIndex_lt hN c
  rcases terminalFrom_congr b c (N - 1) (N - 1) 0 h with heq | ⟨hb', hc'⟩
  · exact heq
  · unfold terminalIndex at *; omega

/-- Settles O36: the first four bytes say where DEC32 stops, and of the fifth only the low four bits are gathered. -/
theorem fifthByteHighBitsIgnored : Obligations.FifthByteHighBitsIgnored := by
  intro m s t haw hreq hbytes hfifth
  have hcontr : ∀ j, j < 5 → contribution 32 5 s.wireByte j = contribution 32 5 t.wireByte j := fun j hj => by
    unfold contribution
    split_ifs with hlast
    · subst hlast
      exact lastGroup_of_low4 hfifth
    · exact congrArg (group 32 j) (hbytes j (by omega))
  obtain ⟨r, log, a, vs, hs, ht⟩ := decodeOp_sameAnswer_of_contribution (by decide) m sext32
    ⟨haw, congrArg Request.off hreq, congrArg Request.avail hreq⟩ (terminalIndex_congr (by decide) hbytes) hcontr
  exact ⟨_, _, hs, ht, rfl⟩

end Sys2Proof.Machine

/-! # LEN (O28, O29)

First the count that LEN answers, as the least number of groups that hold the payload; then that ENC answers the same count
when it succeeds, and that this much room makes it succeed. Each argument is made once for both widths. -/

namespace Sys2Proof.Machine

/-- R150, R151: LEN's answer and what determines its count; the 4 bits of `RESP.CNT` cut nothing off. -/
theorem lengthOp_least {W N : Nat} (hW : WidthFits W N) {m : Mode} {v u : BitVec W} (s : State) (hu : u = payload m v) :
    ∃ n : BitVec 4, lengthOp N m v s = .next { s with resp := some ⟨.ok, 0, n⟩ } ∧
      1 ≤ n.toNat ∧ n.toNat ≤ N ∧ (n.toNat < N → u.toNat < 2 ^ (7 * n.toNat)) ∧
      ∀ j, 1 ≤ j → j < n.toNat → 2 ^ (7 * j) ≤ u.toNat := by
  subst hu
  refine ⟨_, lengthOp_eq N m v s, ?_⟩
  rw [toNat_ofNat_varLen hW]
  exact ⟨varLen_pos N _, varLen_le hW.pos _, lt_of_varLen_lt _, le_of_lt_varLen _⟩

/-- Settles O28: `lengthOp_least` for each width. -/
theorem lenResults : Obligations.LenResults :=
  fun _ s => ⟨fun _ hu => lengthOp_least widthFits32 s hu, fun _ hu => lengthOp_least widthFits64 s hu⟩

/-- R114, R115: an ENC that succeeds answers the length of the payload. -/
theorem encodeOp_okCount {W : Nat} (N : Nat) (m : Mode) (v : BitVec W) (s : State) :
    OkSatisfies (fun _ cnt => cnt = BitVec.ofNat 4 (varLen N (payload m v))) (encodeOp N m v s) := by
  rw [encodeOp_eq]
  split_ifs
  · exact okSatisfies_next rfl nofun
  · exact okSatisfies_next rfl fun _ => rfl
  · exact okSatisfies_next rfl nofun

/-- R152: LEN and ENC of the same value and mode, on the same state. -/
theorem lengthOp_agrees_encodeOp {W N : Nat} (hW : WidthFits W N) (m : Mode) (v : BitVec W) (s : State) :
    ∃ t n, lengthOp N m v s = .next t ∧ t.resp = some ⟨.ok, 0, n⟩ ∧
      ∃ t' r', encodeOp N m v s = .next t' ∧ t'.resp = some r' ∧
        (r'.status = .ok → r'.cnt = n) ∧
        (s.req.off + s.req.avail ≤ 2 ^ s.aw → n.toNat ≤ s.req.avail → r'.status = .ok) := by
  obtain ⟨_, r', _, henc⟩ := encodeOp_answers N m v s
  refine ⟨_, _, lengthOp_eq N m v s, rfl, _, r', henc, rfl, encodeOp_okCount N m v s _ r' henc rfl, fun hr hroom => ?_⟩
  rw [toNat_ofNat_varLen hW] at hroom
  have hnext := Host.Outcome.next.inj (henc.symm.trans (encodeOp_of_room hr hroom))
  exact congrArg Response.status (Option.some.inj (congrArg State.resp hnext))

/-- Settles O29: `lengthOp_agrees_encodeOp` for each width. -/
theorem lenAgreesWithEnc : Obligations.LenAgreesWithEnc := by
  rintro m s _ (rfl | rfl)
  · exact lengthOp_agrees_encodeOp widthFits32 m s.val32 s
  · exact lengthOp_agrees_encodeOp widthFits64 m s.val64 s

end Sys2Proof.Machine

/-! # CANRD (O37 to O40)

First the predicate of R160 as facts about the bytes, and as the index where a reader of R130 stops; then CANRD's answer as
that predicate. Agreement with DEC and the answers over the bytes of an encoding follow from where the reader stops. -/

namespace Sys2Proof.Machine

/-! ### The completeness predicate -/

/-- R160: when a value is complete. -/
theorem canRead_eq_true_iff (N : Nat) (b : Nat → Byte) (a : Nat) :
    canRead N b a = true ↔ N ≤ a ∨ ∃ i, i < a ∧ contFlag (b i) = false := by
  simp [canRead]

/-- R160: when a value is not complete. -/
theorem canRead_eq_false_iff (N : Nat) (b : Nat → Byte) (a : Nat) :
    canRead N b a = false ↔ a < N ∧ ∀ i, i < a → contFlag (b i) = true := by
  simp [canRead]

/-- R130, R162: the search for a clear flag ends among the first `a` bytes exactly when one of them has it. -/
theorem terminalFrom_lt_iff (b : Nat → Byte) {a n : Nat} (h : a ≤ n) :
    terminalFrom b n 0 < a ↔ ∃ i, i < a ∧ contFlag (b i) = false := by
  obtain ⟨-, -, hstop, hcont⟩ := terminalFrom_spec b n 0
  constructor
  · exact fun hk => ⟨_, hk, hstop (by omega)⟩
  · rintro ⟨i, hi, hclear⟩
    by_contra! hle
    exact Bool.false_ne_true (hclear.symm.trans (hcont i (Nat.zero_le i) (by omega)))

/-- R160 and R130: a value is complete exactly when a reader's terminal byte is among the valid ones; the byte at index
`N - 1` is terminal whatever its flag is. -/
theorem canRead_iff_terminalIndex_lt {N : Nat} (hN : 1 ≤ N) (b : Nat → Byte) (a : Nat) :
    canRead N b a = true ↔ terminalIndex N b < a := by
  rw [canRead_eq_true_iff]
  by_cases ha : N ≤ a
  · exact iff_of_true (.inl ha) ((terminalIndex_lt hN b).trans_le ha)
  · rw [terminalIndex, terminalFrom_lt_iff b (by omega), or_iff_right ha]

/-! ### CANRD's answer and its reads -/

/-- R161: the fast path. -/
theorem canReadOp_of_enough {N : Nat} {s : State} (hr : s.req.off + s.req.avail ≤ 2 ^ s.aw) (ha : N ≤ s.req.avail) :
    canReadOp N s = .next { s with resp := some ⟨.ok, 1, 0⟩ } := by
  rw [canReadOp_eq, if_pos (s.inRange_iff.mpr hr), if_pos ha]
  rfl

/-- R162, R163, R47: the walk, by the first index `k` whose byte has its flag clear, or `REQ.AVAIL` when there is none. -/
theorem canReadOp_of_walk {N k : Nat} {s : State} (hr : s.req.off + s.req.avail ≤ 2 ^ s.aw) (ha : s.req.avail < N)
    (hk : k ≤ s.req.avail) (hcont : ∀ i, i < k → (s.byteAt (s.req.off + i)).getLsbD 7 = true)
    (hstop : k < s.req.avail → (s.byteAt (s.req.off + k)).getLsbD 7 = false) :
    canReadOp N s = .next { s with
      resp := some ⟨.ok, answerVal (decide (k < s.req.avail)), 0⟩
      bus := s.bus ++ (List.range (min (k + 1) s.req.avail)).map (fun i => .read (s.req.off + i)) } := by
  have hterm : terminalFrom s.wireByte s.req.avail 0 = k :=
    terminalFrom_unique s.wireByte _ 0 k (Nat.zero_le k) (by omega) (fun h => hstop (by omega)) fun i _ => hcont i
  rw [canReadOp_eq, if_pos (s.inRange_iff.mpr hr), if_neg ha.not_ge, hterm, readsFrom_first]

/-- R164, R165: the three ways CANRD completes. -/
theorem canReadOp_results {N : Nat} {s : State} (hr : s.req.off + s.req.avail ≤ 2 ^ s.aw) :
    (N ≤ s.req.avail → canReadOp N s = .next { s with resp := some ⟨.ok, 1, 0⟩ }) ∧
    (∀ k, s.req.avail < N → k < s.req.avail →
      (∀ i, i < k → (s.byteAt (s.req.off + i)).getLsbD 7 = true) →
      (s.byteAt (s.req.off + k)).getLsbD 7 = false →
      canReadOp N s = .next { s with
        resp := some ⟨.ok, 1, 0⟩
        bus := s.bus ++ (List.range (k + 1)).map (fun i => .read (s.req.off + i)) }) ∧
    (s.req.avail < N →
      (∀ i, i < s.req.avail → (s.byteAt (s.req.off + i)).getLsbD 7 = true) →
      canReadOp N s = .next { s with
        resp := some ⟨.ok, 0, 0⟩
        bus := s.bus ++ (List.range s.req.avail).map (fun i => .read (s.req.off + i)) }) := by
  refine ⟨canReadOp_of_enough hr, fun k ha hk hcont hclear => ?_, fun ha hcont => ?_⟩
  · rw [canReadOp_of_walk hr ha hk.le hcont fun _ => hclear, decide_eq_true hk, Nat.min_eq_left hk]
    rfl
  · rw [canReadOp_of_walk hr ha le_rfl hcont fun h => absurd h (lt_irrefl _), decide_eq_false (lt_irrefl _),
      Nat.min_eq_right (Nat.le_succ _)]
    rfl

/-- Settles O37: `canReadOp_results` for each width. -/
theorem canReadResults : Obligations.CanReadResults := by
  rintro s _ (rfl | rfl) hr
  · exact canReadOp_results hr
  · exact canReadOp_results hr

/-! ### CANRD answers the predicate -/

theorem answerVal_eq_ite (b : Bool) : answerVal b = if b then 1 else 0 := by
  cases b <;> rfl

/-- R160 to R163: the fast path and the walk answer the predicate of the bytes at `REQ.OFF` and up, here under any
proposition `P` that says the same. -/
theorem canReadOp_responds {N : Nat} {s : State} {P : Prop} [Decidable P] (hr : s.req.off + s.req.avail ≤ 2 ^ s.aw)
    (hP : canRead N s.wireByte s.req.avail = true ↔ P) :
    ∃ t, canReadOp N s = .next t ∧ t.resp = some ⟨.ok, if P then 1 else 0, 0⟩ := by
  rw [canRead_eq_true_iff, ← terminalFrom_lt_iff _ le_rfl] at hP
  by_cases ha : N ≤ s.req.avail
  · exact ⟨_, canReadOp_of_enough hr ha, by rw [if_pos (hP.mp (.inl ha))]⟩
  · rw [canReadOp_eq, if_pos (s.inRange_iff.mpr hr), if_neg ha]
    refine ⟨_, rfl, ?_⟩
    simp [answerVal_eq_ite, ← hP, ha]

/-- Settles O38: R160's cases in both directions, and the operation's answer. -/
theorem canReadIsThePredicate : Obligations.CanReadIsThePredicate := by
  rintro s _ (rfl | rfl)
  · exact ⟨fun b a => ⟨canRead_eq_true_iff 5 b a, canRead_eq_false_iff 5 b a⟩, fun hr => canReadOp_responds hr .rfl⟩
  · exact ⟨fun b a => ⟨canRead_eq_true_iff 9 b a, canRead_eq_false_iff 9 b a⟩, fun hr => canReadOp_responds hr .rfl⟩

/-! ### CANRD and DEC -/

/-- R166: CANRD and DEC of the same bytes, on every state. Both turn on whether the terminal byte is a valid one; out of
range both answer ERR_RANGE. -/
theorem canReadOp_agrees_decodeOp {W N : Nat} (hN : 1 ≤ N) (m : Mode) (ext : BitVec W → Word64) (s : State) :
    ∃ t r t' r', canReadOp N s = .next t ∧ t.resp = some r ∧ decodeOp N m ext s = .next t' ∧ t'.resp = some r' ∧
      ((r.status = .ok ∧ r.val = 1) ↔ r'.status = .ok) ∧
      ((r.status = .ok ∧ r.val = 0) ↔ r'.status = .truncated) ∧
      (r.status = .ok → r.val = 1 → r'.cnt.toNat ≤ s.req.avail) := by
  rw [decodeOp_eq]
  by_cases hr : s.inRange = true
  · obtain ⟨t, ht, hresp⟩ :=
      canReadOp_responds (s.inRange_iff.mp hr) (canRead_iff_terminalIndex_lt hN s.wireByte s.req.avail)
    rw [if_pos hr]
    by_cases hk : terminalIndex N s.wireByte < s.req.avail
    · rw [if_pos hk] at hresp ⊢
      have hcnt : (BitVec.ofNat 4 (terminalIndex N s.wireByte + 1)).toNat ≤ s.req.avail := by
        rw [BitVec.toNat_ofNat]
        exact (Nat.mod_le _ _).trans hk
      exact ⟨t, _, _, _, ht, hresp, rfl, rfl, by simp, by simp, fun _ _ => hcnt⟩
    · rw [if_neg hk] at hresp ⊢
      exact ⟨t, _, _, _, ht, hresp, rfl, rfl, by simp, by simp, fun _ => by simp⟩
  · rw [canReadOp_eq, if_neg hr, if_neg hr]
    exact ⟨_, _, _, _, rfl, rfl, rfl, rfl, by simp, by simp, nofun⟩

/-- Settles O39: `canReadOp_agrees_decodeOp` for each width. -/
theorem canReadAgreesWithDec : Obligations.CanReadAgreesWithDec := by
  rintro m s _ (rfl | rfl)
  · exact canReadOp_agrees_decodeOp (by decide) m sext32 s
  · exact canReadOp_agrees_decodeOp (by decide) m full64 s

/-! ### CANRD over the bytes of an encoding -/

/-- R167: a reader of an encoding stops at its last byte, so CANRD answers 1 exactly when that byte is valid. -/
theorem canReadOp_of_startsWith {W N : Nat} (hW : WidthFits W N) {u : BitVec W} {s : State}
    (hr : s.req.off + s.req.avail ≤ 2 ^ s.aw) (h : StartsWith s.wireByte (encBytes N u)) :
    ∃ t, canReadOp N s = .next t ∧ t.resp = some ⟨.ok, if varLen N u ≤ s.req.avail then 1 else 0, 0⟩ := by
  refine canReadOp_responds hr ?_
  have hpos := varLen_pos N u
  rw [canRead_iff_terminalIndex_lt hW.pos, terminalIndex_of_startsWith hW h]
  omega

/-- Settles O40: `canReadOp_of_startsWith` for each width. -/
theorem canReadPrefixLaw : Obligations.CanReadPrefixLaw :=
  ⟨fun _ _ _ hr hb => canReadOp_of_startsWith widthFits32 hr hb,
   fun _ _ _ hr hb => canReadOp_of_startsWith widthFits64 hr hb⟩

end Sys2Proof.Machine

/-! # Errors (O4, O45 to O47)

First what an error leaves behind, for every operation and for a reserved command byte; then the status of each operation's
answer, in which the range check comes before any other (R186), and with it which operation answers which error, exactly
when. -/

namespace Sys2Proof.Machine

/-- Settles O45: the codes are their definition, the bound is `status_code_le`. -/
theorem statusCodes : Obligations.StatusCodes :=
  ⟨rfl, rfl, rfl, rfl, rfl, status_code_le⟩

/-! ### A reserved command byte -/

/-- R74: a byte that is not one of the legal ones is rejected by the decoder. -/
theorem decode_eq_error_of_not_legal {c : Byte} (h : legalCmd c = false) : ∃ e, decode c = .error e := by
  rw [← decode_isOk c] at h
  cases hd : decode c with
  | ok i => rw [hd] at h; cases h
  | error e => exact ⟨e, rfl⟩

/-- Settles O4: the decoder rejects the byte, so the request is answered before its operands are looked at. -/
theorem reservedCommandIsIllegal : Obligations.ReservedCommandIsIllegal := by
  intro s q rest hs hc
  obtain ⟨e, he⟩ := decode_eq_error_of_not_legal hc
  rw [step_of_host_request s q rest hs, serveRequest_of_error q _ e he]
  exact ⟨rfl, rfl⟩

/-! ### What an error leaves behind -/

/-- R187: the state `t` after the error `e` is `s` with the error's response, which carries zeros, and, only where the error is
ERR_TRUNCATED, some reads of the value's first bytes. -/
def Raised (s : State) (e : Status) (t : State) : Prop :=
  ∃ n, t = { s with resp := some ⟨e, 0, 0⟩, bus := s.bus ++ s.readsFrom 0 n } ∧ (e ≠ .truncated → n = 0)

/-- Where the outcome's response is an error, the error leaves nothing behind but what R187 allows. -/
def RaisesOnly (s : State) (o : Result) : Prop :=
  ∀ t r, o = .next t → t.resp = some r → r.status ≠ .ok → Raised s r.status t

theorem raisesOnly_ok (s : State) {t : State} {v : Word64} {n : BitVec 4} (ht : t.resp = some ⟨.ok, v, n⟩) :
    RaisesOnly s (.next t) := by
  intro t' r ht' hr hne
  cases ht'
  cases ht.symm.trans hr
  exact absurd rfl hne

theorem raisesOnly_raised {s t : State} {e : Status} (h : Raised s e t) : RaisesOnly s (.next t) := by
  intro t' r ht' hr _
  cases ht'
  obtain ⟨n, rfl, hn⟩ := h
  cases hr
  exact ⟨n, rfl, hn⟩

/-- An error that is raised before the first access. -/
theorem raised_response (s : State) (e : Status) : Raised s e { s with resp := some ⟨e, 0, 0⟩ } :=
  ⟨0, by simp [readsFrom_zero], fun _ => rfl⟩

/-- R187: an error other than ERR_TRUNCATED changes the response and nothing else. -/
theorem Raised.eq_of_ne_truncated {s t : State} {e : Status} (h : Raised s e t) (he : e ≠ .truncated) :
    t = { s with resp := some ⟨e, 0, 0⟩ } := by
  obtain ⟨n, rfl, hn⟩ := h
  simp [hn he, readsFrom_zero]

/-- R187: an error stores nothing, and its response carries zeros. -/
theorem Raised.resp_buf {s t : State} {e : Status} (h : Raised s e t) : t.resp = some ⟨e, 0, 0⟩ ∧ t.buf = s.buf := by
  obtain ⟨n, rfl, -⟩ := h
  exact ⟨rfl, rfl⟩

/-- R187: an error adds no access to the byte port but the reads of ERR_TRUNCATED. -/
theorem Raised.bus_reads {s t : State} {e : Status} (h : Raised s e t) {x : Access} (hx : x ∈ t.bus) :
    x ∈ s.bus ∨ e = .truncated ∧ ∃ a, x = .read a := by
  obtain ⟨n, rfl, hn⟩ := h
  refine (List.mem_append.mp hx).imp_right fun hread => ?_
  obtain ⟨j, hj, rfl⟩ := List.mem_map.mp hread
  refine ⟨?_, s.addr j, rfl⟩
  by_contra he
  rw [hn he] at hj
  cases hj

theorem encodeOp_raisesOnly {W : Nat} (N : Nat) (m : Mode) (v : BitVec W) (s : State) :
    RaisesOnly s (encodeOp N m v s) := by
  rw [encodeOp_eq]
  split_ifs
  · exact raisesOnly_raised (raised_response s .capacity)
  · exact raisesOnly_ok s rfl
  · exact raisesOnly_raised (raised_response s .range)

theorem decodeOp_raisesOnly {W : Nat} (N : Nat) (m : Mode) (ext : BitVec W → Word64) (s : State) :
    RaisesOnly s (decodeOp N m ext s) := by
  rw [decodeOp_eq]
  split_ifs
  · exact raisesOnly_ok s rfl
  · exact raisesOnly_raised ⟨s.req.avail, rfl, fun h => absurd rfl h⟩
  · exact raisesOnly_raised (raised_response s .range)

theorem canReadOp_raisesOnly (N : Nat) (s : State) : RaisesOnly s (canReadOp N s) := by
  rw [canReadOp_eq]
  split_ifs
  · exact raisesOnly_ok s rfl
  · exact raisesOnly_ok s rfl
  · exact raisesOnly_raised (raised_response s .range)

theorem exec_raisesOnly (i : Instr) (s : State) : RaisesOnly s (exec i s) := by
  cases i with
  | len32 | len64 | zze32 | zze64 | zzd32 | zzd64 => exact raisesOnly_ok s rfl
  | enc32 m | enc64 m => exact encodeOp_raisesOnly _ m _ s
  | dec32 m | dec64 m => exact decodeOp_raisesOnly _ m _ s
  | canrd32 | canrd64 => exact canReadOp_raisesOnly _ s

/-- R187 for every request, legal or reserved. -/
theorem serveRequest_raisesOnly (q : Request) (s : State) : RaisesOnly { s with req := q } (serveRequest q s) := by
  cases hd : decode q.cmd with
  | ok i => rw [serveRequest_of_ok q s i hd]; exact exec_raisesOnly i _
  | error e => rw [serveRequest_of_error q s e hd]; exact raisesOnly_raised (raised_response _ .illegalCmd)

/-- Settles O47: `serveRequest_raisesOnly`, on the byte port that the step has cleared. -/
theorem errorHasNoEffect : Obligations.ErrorHasNoEffect := by
  intro s t q rest r hs ht hr hne
  rw [step_of_host_request s q rest hs] at ht
  have hraised := serveRequest_raisesOnly q _ t r ht hr hne
  obtain ⟨hresp, hbuf⟩ := hraised.resp_buf
  have hzeros : r = ⟨r.status, 0, 0⟩ := Option.some.inj (hr.symm.trans hresp)
  exact ⟨congrArg Response.val hzeros, congrArg Response.cnt hzeros, hbuf,
    fun x hx => (hraised.bus_reads hx).resolve_left List.not_mem_nil⟩

/-! ### The status of an answer -/

/-- `RESP.STATUS` of an outcome, where there is a response. -/
def statusOf : Result → Option Status
  | .next t => t.resp.map Response.status
  | .fault _ | .refused _ => none

/-- R186: the status of an operation that checks its range first and then raises the error `e` where `fails` holds. -/
def checkedStatus (s : State) (fails : Prop) [Decidable fails] (e : Status) : Status :=
  if s.inRange then if fails then e else .ok else .range

section CheckedStatus

variable {s : State} {fails : Prop} [Decidable fails] {e : Status}

/-- R184: the range check alone answers ERR_RANGE. -/
theorem checkedStatus_eq_range_iff (he : e ≠ .range) :
    checkedStatus s fails e = .range ↔ 2 ^ s.aw < s.req.off + s.req.avail := by
  rw [← not_le, ← s.inRange_iff, checkedStatus]
  split_ifs with hr
  · exact iff_of_false he (not_not.mpr hr)
  · exact iff_of_false nofun (not_not.mpr hr)
  · exact iff_of_true rfl hr

/-- R186: the operation's own error is raised only behind the range check. -/
theorem checkedStatus_eq_own_iff (he : e ≠ .ok) (hrange : e ≠ .range) :
    checkedStatus s fails e = e ↔ s.req.off + s.req.avail ≤ 2 ^ s.aw ∧ fails := by
  rw [← s.inRange_iff, checkedStatus]
  split_ifs with hr hf
  · exact iff_of_true rfl ⟨hr, hf⟩
  · exact iff_of_false he.symm fun h => hf h.2
  · exact iff_of_false hrange.symm fun h => hr h.1

/-- No error but these two is raised. -/
theorem checkedStatus_ne {e' : Status} (hne : e ≠ e') (hok : e' ≠ .ok) (hrange : e' ≠ .range) :
    checkedStatus s fails e ≠ e' := by
  unfold checkedStatus
  split_ifs
  · exact hne
  · exact hok.symm
  · exact hrange.symm

end CheckedStatus

/-- R181: ENC's own error is ERR_CAPACITY. -/
theorem statusOf_encodeOp {W : Nat} (N : Nat) (m : Mode) (v : BitVec W) (s : State) :
    statusOf (encodeOp N m v s) =
      some (checkedStatus s (s.req.avail < varLen N (payload m v)) .capacity) := by
  rw [encodeOp_eq, checkedStatus]
  split_ifs <;> rfl

/-- R137, R182: DEC's own error is ERR_TRUNCATED, where CANRD's predicate does not hold of the valid bytes. -/
theorem statusOf_decodeOp {W N : Nat} (hN : 1 ≤ N) (m : Mode) (ext : BitVec W → Word64) (s : State) :
    statusOf (decodeOp N m ext s) =
      some (checkedStatus s (canRead N s.wireByte s.req.avail = false) .truncated) := by
  simp only [decodeOp_eq, checkedStatus, ← canRead_iff_terminalIndex_lt hN, ← Bool.not_eq_true]
  split_ifs <;> rfl

/-- R164, R165: CANRD has no error of its own. -/
theorem statusOf_canReadOp (N : Nat) (s : State) : statusOf (canReadOp N s) = some (checkedStatus s False .ok) := by
  rw [canReadOp_eq, checkedStatus]
  split_ifs <;> rfl

/-- R181 to R186: the status that an operation answers. LEN and the transform operations check nothing. -/
def answerStatus (s : State) : Instr → Status
  | .len32 _ | .len64 _ | .zze32 | .zze64 | .zzd32 | .zzd64 => .ok
  | .enc32 m => checkedStatus s (s.req.avail < varLen 5 (payload m (s.req.val.extractLsb' 0 32))) .capacity
  | .enc64 m => checkedStatus s (s.req.avail < varLen 9 (payload m s.req.val)) .capacity
  | .dec32 _ => checkedStatus s (canRead 5 s.wireByte s.req.avail = false) .truncated
  | .dec64 _ => checkedStatus s (canRead 9 s.wireByte s.req.avail = false) .truncated
  | .canrd32 | .canrd64 => checkedStatus s False .ok

theorem statusOf_exec (i : Instr) (s : State) : statusOf (exec i s) = some (answerStatus s i) := by
  cases i with
  | len32 | len64 | zze32 | zze64 | zzd32 | zzd64 => rfl
  | enc32 m => exact statusOf_encodeOp 5 m s.val32 s
  | enc64 m => exact statusOf_encodeOp 9 m s.val64 s
  | dec32 m => exact statusOf_decodeOp (by decide) m sext32 s
  | dec64 m => exact statusOf_decodeOp (by decide) m full64 s
  | canrd32 => exact statusOf_canReadOp 5 s
  | canrd64 => exact statusOf_canReadOp 9 s

/-! ### Which operation answers which error -/

/-- R184: ENC, DEC and CANRD check the range, whatever they check after it. -/
theorem answerStatus_eq_range_iff (i : Instr) (s : State) :
    answerStatus s i = .range ↔ 2 ^ s.aw < s.req.off + s.req.avail ∧
      ((∃ m, i = .enc32 m ∨ i = .enc64 m ∨ i = .dec32 m ∨ i = .dec64 m) ∨ i = .canrd32 ∨ i = .canrd64) := by
  cases i with
  | len32 | len64 | zze32 | zze64 | zzd32 | zzd64 => simp [answerStatus]
  | enc32 | enc64 | dec32 | dec64 | canrd32 | canrd64 => simp [answerStatus, checkedStatus_eq_range_iff]

/-- R181, R186: ENC alone checks its room. -/
theorem answerStatus_eq_capacity_iff (i : Instr) (s : State) :
    answerStatus s i = .capacity ↔ s.req.off + s.req.avail ≤ 2 ^ s.aw ∧
      ∃ m, (i = .enc32 m ∧ s.req.avail < varLen 5 (payload m (s.req.val.extractLsb' 0 32))) ∨
        (i = .enc64 m ∧ s.req.avail < varLen 9 (payload m s.req.val)) := by
  cases i with
  | len32 | len64 | zze32 | zze64 | zzd32 | zzd64 => simp [answerStatus]
  | enc32 | enc64 => simp [answerStatus, checkedStatus_eq_own_iff]
  | dec32 | dec64 | canrd32 | canrd64 => simp [answerStatus, checkedStatus_ne]

/-- R182, R186: DEC alone runs out of valid bytes. -/
theorem answerStatus_eq_truncated_iff (i : Instr) (s : State) :
    answerStatus s i = .truncated ↔ s.req.off + s.req.avail ≤ 2 ^ s.aw ∧
      (∀ j, j < s.req.avail → (s.byteAt (s.req.off + j)).getLsbD 7 = true) ∧
      ∃ m, (i = .dec32 m ∧ s.req.avail < 5) ∨ (i = .dec64 m ∧ s.req.avail < 9) := by
  have hincomplete (N : Nat) : canRead N s.wireByte s.req.avail = false ↔
      s.req.avail < N ∧ ∀ j, j < s.req.avail → (s.byteAt (s.req.off + j)).getLsbD 7 = true :=
    canRead_eq_false_iff N s.wireByte s.req.avail
  cases i with
  | len32 | len64 | zze32 | zze64 | zzd32 | zzd64 => simp [answerStatus]
  | dec32 | dec64 => simp [answerStatus, checkedStatus_eq_own_iff, hincomplete, and_comm]
  | enc32 | enc64 | canrd32 | canrd64 => simp [answerStatus, checkedStatus_ne]

/-- R183: a decoded operation never answers ERR_ILLEGAL_CMD. -/
theorem answerStatus_ne_illegalCmd (i : Instr) (s : State) : answerStatus s i ≠ .illegalCmd := by
  cases i with
  | len32 | len64 | zze32 | zze64 | zzd32 | zzd64 => exact nofun
  | enc32 | enc64 | dec32 | dec64 | canrd32 | canrd64 => simp [answerStatus, checkedStatus_ne]

/-- Settles O46: the status is `answerStatus`, and what an error leaves behind is `exec_raisesOnly`. -/
theorem errorsExactlyWhen : Obligations.ErrorsExactlyWhen := by
  intro i s
  obtain ⟨b, r, log, hn⟩ := exec_answers i s
  have hstatus : r.status = answerStatus s i := by
    have h := statusOf_exec i s
    rw [hn] at h
    exact Option.some.inj h
  have hraised {e : Status} (he : r.status = e) (hne : e ≠ .ok) : Raised s e _ :=
    he ▸ exec_raisesOnly i s _ r hn rfl (he ▸ hne)
  exact ⟨_, r, hn, rfl, hstatus ▸ answerStatus_eq_range_iff i s, hstatus ▸ answerStatus_eq_capacity_iff i s,
    hstatus ▸ answerStatus_eq_truncated_iff i s, hstatus ▸ answerStatus_ne_illegalCmd i s,
    fun h => (hraised h nofun).eq_of_ne_truncated nofun, fun h => (hraised h nofun).eq_of_ne_truncated nofun,
    fun h => (hraised h nofun).resp_buf, rfl, rfl, rfl⟩

end Sys2Proof.Machine

/-! # The steps that serve no request (O7)

The host's accesses past the end of the buffer and the reset; its accesses inside the buffer are `step_of_host_write` and
`step_of_host_read`. -/

namespace Sys2Proof.Machine

/-- R210, R33: a step by a reset only clears the ports. -/
theorem step_of_host_reset {s : State} {rest : List HostMove} (hs : s.host = .reset :: rest) :
    step s = .next { s.clearPorts with host := rest } :=
  step_of_host_cons s _ rest hs

/-- R31: a step by the host's write of a byte the buffer does not have. -/
theorem step_of_host_write_outside {s : State} {a : Nat} {v : Byte} {rest : List HostMove}
    (hs : s.host = .write a v :: rest) (ha : 2 ^ s.aw ≤ a) : step s = .fault (.noSuchByte a) := by
  rw [step_of_host_cons s _ rest hs]
  exact if_neg ha.not_gt

/-- R31: a step by the host's read of a byte the buffer does not have. -/
theorem step_of_host_read_outside {s : State} {a : Nat} {rest : List HostMove}
    (hs : s.host = .read a :: rest) (ha : 2 ^ s.aw ≤ a) : step s = .fault (.noSuchByte a) := by
  rw [step_of_host_cons s _ rest hs]
  exact if_neg ha.not_gt

/-- Settles O7: a step lemma for each move; the bytes after the host's write are read by `byteAt_memWrite`. -/
theorem stepMakesHostMoves : Obligations.StepMakesHostMoves := by
  intro s rest a v
  refine ⟨step_of_host_nil s, step_of_host_reset, fun hs ha => ?write, step_of_host_read,
    step_of_host_write_outside, step_of_host_read_outside⟩
  case write =>
    exact ⟨_, step_of_host_write hs ha, rfl, rfl, rfl, rfl, rfl, rfl,
      (byteAt_memWrite s a a v).trans (if_pos rfl), fun b hb => (byteAt_memWrite s a b v).trans (if_neg hb)⟩

end Sys2Proof.Machine
